-- ==== Sys2Proof/Word.lean ====
section
/-!
DEFINITION. The word types of the machine. Every value of the spec is unsigned (00_scope.md R9), so plain bit
vectors serve; positions and lengths that the spec leaves unbounded (00_scope.md R8) are natural numbers.
-/

namespace Sys2Proof

/-- u8: one byte of the input, the dictionary or the output. -/
abbrev Byte := BitVec 8

/-- u12: an index into the 4096-byte dictionary; its arithmetic is modulo 4096 (20_memory.md R44). -/
abbrev DictIndex := BitVec 12

/-- u16: a reference token (10_state.md R31). -/
abbrev Token := BitVec 16

/-- u32: a header field (10_state.md R24). -/
abbrev Word32 := BitVec 32

/-- u4: the raw length of a reference token (30_encoding.md R74). -/
abbrev Nibble := BitVec 4

end Sys2Proof
end

