-- ==== Sys2Proof/Config.lean ====
section
/-!
DEFINITION. What an implementation fixes: the four named parameters (00_scope.md R7), the draws, the only free
values of this hardware (00_scope.md R13), and the one value that the spec's notation for streams leaves open.
-/

namespace Sys2Proof

/-- `LOOP_BOUND`: what limits the reads of the compressed path (10_state.md R23, 42_compressed_path.md R113). -/
inductive LoopBound where
  | availableInput
  | declaredSize
  deriving DecidableEq, Repr

/-- `HEADER_ERROR_ORDER`: which header check comes first (40_header_parser.md R91). -/
inductive HeaderErrorOrder where
  | kindFirst
  | sizeFirst
  deriving DecidableEq, Repr

/-- The two legal header kinds (00_scope.md R15, 10_state.md R24). -/
inductive Kind where
  | compressed
  | uncompressed
  deriving DecidableEq, Repr

/-- The configuration of a run (00_scope.md R7). -/
structure Params where
  /-- `LOOP_BOUND`. -/
  loopBound : LoopBound
  /-- `STRICT_REFS`. -/
  strictRefs : Bool
  /-- `DICT_FILL`: `none` for an unconstrained draw. -/
  dictFill : Option Byte
  /-- `HEADER_ERROR_ORDER`. -/
  headerErrorOrder : HeaderErrorOrder
  deriving DecidableEq, Repr

/-- The defaults that 00_scope.md R7 adopts. -/
def Params.default : Params where
  loopBound := .availableInput
  strictRefs := false
  dictFill := none
  headerErrorOrder := .kindFirst

/-- `draw_u8()` (00_scope.md R13): draw number `n` of the run, any byte. No body, so no proof can know it (log 2).
Every invocation draws the same sequence: DESIGN CHOICE, unsafe between two invocations (log 21). -/
opaque Config.drawU8 (n : Nat) : Byte

/-- `draw_u32()` (00_scope.md R13): draw number `n` of the run, any 32-bit value. No body (log 2). Every invocation
draws the same sequence: DESIGN CHOICE, unsafe between two invocations (log 21). -/
opaque Config.drawU32 (n : Nat) : Word32

/-- The `csize` that `csize=auto` emits when `n`, the 12 header bytes and the payload, does not fit in a u32: the spec
states no value (30_encoding.md R81), so a free one. DESIGN CHOICE, safe (log 22). No body. -/
opaque Config.autoSizeBeyondU32 (n : Nat) : Word32

end Sys2Proof
end

