-- ==== Sys2Proof/Syntax.lean ====
section
/-!
DEFINITION. The instructions: one constructor per row of spec/opcode_table.json (30_encoding.md R80). They are the
units of the input stream that the machine consumes (00_scope.md R3).
-/

namespace Sys2Proof

/-- The units of the input stream, with the operands their encodings carry. -/
inductive Instr where
  /-- `HDR.LZFU`: a header whose kind field is 0x75465A4C (30_encoding.md R66, R67). -/
  | hdrLzfu (compressedSize rawSize checksum : Word32)
  /-- `HDR.MELA`: a header whose kind field is 0x414C454D (30_encoding.md R66, R67). -/
  | hdrMela (compressedSize rawSize checksum : Word32)
  /-- `RAW`: one byte of an Uncompressed payload (30_encoding.md R70). -/
  | raw (b : Byte)
  /-- `CTRL`: a control byte; bit `i` announces token `i` (30_encoding.md R72). -/
  | ctrl (c : Byte)
  /-- `LIT`: a literal byte (30_encoding.md R73). -/
  | lit (b : Byte)
  /-- `REF`: a reference token whose offset differs from the write position (30_encoding.md R74, R80). -/
  | ref (offset : DictIndex) (rawLen : Nibble)
  /-- `END`: a reference token whose offset equals the write position (30_encoding.md R76, R80). -/
  | endRef (offset : DictIndex) (rawLen : Nibble)
  deriving DecidableEq, Repr

end Sys2Proof
end

