-- ==== Sys2Proof/Machine/State.lean ====
section
/-!
DEFINITION. The state of one invocation as plain data: every field of 10_state.md R18, the parameters and the input
that 10_state.md R17 fixes for a run, and the model's own draw counter; the reasons a step stops; the state at reset.
-/

namespace Sys2Proof.Machine

/-- The step rule that applies next (10_state.md R20). -/
inductive Phase where
  | header
  | pass
  | ctrl
  | lit
  | ref
  | copy
  | done
  deriving DecidableEq, Repr

/-- The error kinds and the values they carry (60_exceptions.md R118). -/
inductive RunError where
  /-- A short input, or a declared size below its kind's minimum (60_exceptions.md R119). -/
  | invalidSize (size : Word32)
  /-- A kind field that is neither magic, as read (60_exceptions.md R120). -/
  | invalidCompType (rawValue : Word32)
  /-- A reference to a never-written cell, under STRICT_REFS only (60_exceptions.md R121). -/
  | invalidDictionaryReference
  /-- In the spec's list of codes, never raised by this block (60_exceptions.md R122). -/
  | corrupted
  deriving DecidableEq, Repr

/-- `Ok(bytes)` or `Err(kind, value)` (10_state.md R35). -/
inductive RunResult where
  | ok (bytes : List Byte)
  | err (e : RunError)
  deriving DecidableEq, Repr

/-- Why a successful run ended (10_state.md R36). -/
inductive TermReason where
  | sentinel
  | endOfInput
  | passThroughDone
  deriving DecidableEq, Repr

/-- The header registers (10_state.md R24). -/
structure Header where
  compressedSize : Word32
  rawSize : Word32
  kindRaw : Word32
  /-- Absent unless `kindRaw` is one of the two magics (10_state.md R24). -/
  kind : Option Kind
  checksum : Word32
  deriving DecidableEq, Repr

/-- The dictionary's contents: the cells that differ from what an unlisted cell holds, by rising address (log 4). -/
abbrev Memory := List Host.Cell

/-- The machine (10_state.md R17, R18). -/
structure State where
  /-- The parameters of the run (00_scope.md R7); no step writes them (log 1). -/
  params : Params
  /-- `In`, of length `N` (10_state.md R17); no step writes it (log 1). -/
  input : List Byte
  /-- The step rule that applies next (10_state.md R20). -/
  phase : Phase
  /-- The input cursor (10_state.md R22). -/
  cur : Nat
  /-- One past the last input byte the compressed path may read (10_state.md R23). -/
  bound : Nat
  /-- The header registers (10_state.md R24). -/
  hdr : Header
  /-- The dictionary (10_state.md R25). -/
  dict : Memory
  /-- Whether `w` has ever advanced from 4095 to 0 (10_state.md R27). -/
  wrapped : Bool
  /-- `writeOffset` (10_state.md R28). -/
  w : DictIndex
  /-- `readOffset` (10_state.md R29). -/
  r : DictIndex
  /-- The control byte of the current group (10_state.md R30). -/
  ctrl : Byte
  /-- The last reference token read (10_state.md R31). -/
  tok : Token
  /-- Bytes the current copy has still to move (10_state.md R32). -/
  copyRemaining : Nat
  /-- Index in `ctrl` of the next token of the group (10_state.md R33). -/
  bitIndex : Nat
  /-- The output (10_state.md R34). -/
  out : List Byte
  /-- `None` until the run is done (10_state.md R35). -/
  result : Option RunResult
  /-- Why a successful run ended; the host cannot see it (10_state.md R36). -/
  termReason : TermReason
  /-- The model's own: how many draws the run has made (log 2). -/
  draws : Nat
  deriving DecidableEq, Repr

/-- Why the machine stops without a next state. Errors of a run are no stops: they are results (60_exceptions.md R127). -/
inductive Fault where
  /-- Raised by `step` in phase DONE, where no step is enabled (10_state.md R20, 60_exceptions.md R128). Safe (log 7). -/
  | runEnded
  /-- Raised by a meaning called outside the phase that enables its step rule; `step` never does so. Safe (log 8). -/
  | notEnabled
  /-- Raised by `step` for a read at an input address outside 0..N-1, which does not exist (20_memory.md R42); no run
  reaches it, since `bound` is at most `N`. Safe (log 9). -/
  | inputOutOfRange
  deriving DecidableEq, Repr

/-- Why an instruction has no meaning. -/
inductive Refusal where
  /-- Raised by `exec` for an instruction not modelled yet; every instruction is modelled, so nothing raises it. Safe. -/
  | notModelled (mnemonic : String)
  deriving DecidableEq, Repr

/-- The header registers at reset: unspecified by the spec (10_state.md R24), zero and absent by DESIGN CHOICE (log 6). -/
def Header.reset : Header where
  compressedSize := 0#32
  rawSize := 0#32
  kindRaw := 0#32
  kind := none
  checksum := 0#32

/-- The state at the start of an invocation with parameters `p` on the input `input` (10_state.md R39, 60_exceptions.md
R136). `bound`, `hdr`, `r`, `ctrl`, `tok`, `bitIndex` and `termReason` are unspecified by the spec; their values are
DESIGN CHOICE (log 6), and so is `draws` (log 2): it is 0 in every invocation, so draw number `n` of one invocation
equals draw number `n` of another, where 00_scope.md R13 gives no law (log 21, unsafe). The dictionary lists nothing: it holds the seed (log 4). -/
def State.start (p : Params) (input : List Byte) : State where
  params := p
  input := input
  phase := .header
  cur := 0
  bound := 0
  hdr := Header.reset
  dict := []
  wrapped := false
  w := 207#12
  r := 0#12
  ctrl := 0#8
  tok := 0#16
  copyRemaining := 0
  bitIndex := 0
  out := []
  result := none
  termReason := .sentinel
  draws := 0

/-- Reset with nothing presented: the default parameters (00_scope.md R7) and an empty input (log 14). -/
def State.reset : State := State.start Params.default []

end Sys2Proof.Machine
end

