-- ==== Sys2Proof/Machine/Flags.lean ====
section
/-!
DEFINITION. The machine has no flags or condition codes (10_state.md R37). These are the predicates its steps test,
none of them stored as state apart from `wrapped`.
-/

namespace Sys2Proof.Machine

/-- `InAvail(n)`: `cur + n <= bound` (00_scope.md R11). -/
def State.inAvail (s : State) (n : Nat) : Bool := decide (s.cur + n ≤ s.bound)

/-- `Written(i)`: `wrapped or i < w` (10_state.md R27). -/
def State.written (s : State) (i : DictIndex) : Bool := s.wrapped || decide (i < s.w)

/-- The comparison `offset = w` that selects the sentinel (42_compressed_path.md R108). -/
def State.isSentinel (s : State) (offset : DictIndex) : Bool := decide (offset = s.w)

/-- The strict check: `STRICT_REFS and not wrapped and offset > w` (42_compressed_path.md R107). -/
def State.strictViolation (s : State) (offset : DictIndex) : Bool :=
  s.params.strictRefs && !s.wrapped && decide (s.w < offset)

/-- Bit `i` of a control byte, bit 0 the least significant: clear for a literal (30_encoding.md R72). -/
def controlBit (c : Byte) (i : Nat) : Bool := c.getLsbD i

end Sys2Proof.Machine
end

