-- ==== Sys2Proof/Decode.lean ====
section
/-!
DEFINITION. The decoder, total on any bytes and rejecting by name, and after it the encoder, both from
30_encoding.md. The format of the next unit is known before any byte is read (30_encoding.md R65), so the decoder
takes it as an argument, with the write position that tells `END` from `REF` (R76).
-/

namespace Sys2Proof

/-- The five formats (30_encoding.md R65). -/
inductive Format where
  | header
  | raw
  | control
  | literal
  | reference
  deriving DecidableEq, Repr

/-- Bytes one unit of a format takes (30_encoding.md R65). -/
def Format.size : Format → Nat
  | .header => 16
  | .raw => 1
  | .control => 1
  | .literal => 1
  | .reference => 2

/-- The four u32 fields of a header as read, whatever the kind (40_header_parser.md R87). -/
structure RawHeader where
  compressedSize : Word32
  rawSize : Word32
  kindRaw : Word32
  checksum : Word32
  deriving DecidableEq, Repr

/-- Why no instruction is read. -/
inductive DecodeError where
  /-- Fewer bytes than the format takes: the caller handles it (a header: 40_header_parser.md R86). Safe. -/
  | tooShort (f : Format)
  /-- A header whose kind field is neither magic (30_encoding.md R68, R80): the HEADER step raises
  `InvalidCompType`, or `InvalidSize` under SizeFirst. Safe. -/
  | illegalKind (h : RawHeader)
  deriving DecidableEq, Repr

/-! ### Byte order (20_memory.md R47, R48) -/

/-- `LE32` (00_scope.md R14): the first byte is the least significant. -/
def le32 (b0 b1 b2 b3 : Byte) : Word32 := b3 ++ b2 ++ b1 ++ b0

/-- `BE16` (00_scope.md R14): the first byte is the most significant. -/
def be16 (b0 b1 : Byte) : Token := b0 ++ b1

/-- Byte `j` of a u32, byte 0 the least significant (30_encoding.md R66). -/
def word32Byte (v : Word32) (j : Nat) : Byte := v.extractLsb' (8 * j) 8

/-- The four bytes of a little-endian u32 in input order (20_memory.md R47). -/
def le32Bytes (v : Word32) : List Byte := [word32Byte v 0, word32Byte v 1, word32Byte v 2, word32Byte v 3]

/-- The two bytes of a big-endian token in input order (20_memory.md R48). -/
def be16Bytes (t : Token) : List Byte := [t.extractLsb' 8 8, t.extractLsb' 0 8]

/-! ### Fields -/

/-- `offset = tok[15:4]` (30_encoding.md R74). -/
def tokenOffset (t : Token) : DictIndex := t.extractLsb' 4 12

/-- `rawLength = tok[3:0]` (30_encoding.md R74). -/
def tokenRawLen (t : Token) : Nibble := t.extractLsb' 0 4

/-- The one token of an offset and a raw length: `(offset << 4) | rawLength` (30_encoding.md R75). -/
def mkToken (offset : DictIndex) (rawLen : Nibble) : Token := offset ++ rawLen

/-- `MAGIC_COMPRESSED` (00_scope.md R6). -/
def magicCompressed : Word32 := 0x75465A4C#32

/-- `MAGIC_UNCOMPRESSED` (00_scope.md R6). -/
def magicUncompressed : Word32 := 0x414C454D#32

/-! ### The decoder -/

/-- The header's four fields, in order (40_header_parser.md R87). -/
def readHeader : List Byte → Option (RawHeader × List Byte)
  | b0 :: b1 :: b2 :: b3 :: b4 :: b5 :: b6 :: b7 :: b8 :: b9 :: b10 :: b11 :: b12 :: b13 :: b14 :: b15 :: rest =>
    some (⟨le32 b0 b1 b2 b3, le32 b4 b5 b6 b7, le32 b8 b9 b10 b11, le32 b12 b13 b14 b15⟩, rest)
  | _ => none

/-- The row of the opcode map that a header's kind field selects (30_encoding.md R80). -/
def headerInstr (h : RawHeader) : Except DecodeError Instr :=
  if h.kindRaw = magicCompressed then .ok (.hdrLzfu h.compressedSize h.rawSize h.checksum)
  else if h.kindRaw = magicUncompressed then .ok (.hdrMela h.compressedSize h.rawSize h.checksum)
  else .error (.illegalKind h)

/-- The HEADER format (30_encoding.md R66). -/
def decodeHeader (bytes : List Byte) : Except DecodeError (Instr × List Byte) :=
  match readHeader bytes with
  | none => .error (.tooShort .header)
  | some (h, rest) =>
    match headerInstr h with
    | .ok i => .ok (i, rest)
    | .error e => .error e

/-- The row of the opcode map that a reference token selects at write position `w` (30_encoding.md R76, R80). -/
def referenceInstr (w : DictIndex) (t : Token) : Instr :=
  if tokenOffset t = w then .endRef (tokenOffset t) (tokenRawLen t) else .ref (tokenOffset t) (tokenRawLen t)

/-- A format of one byte (30_encoding.md R70, R72, R73). -/
def decodeByte (f : Format) (mk : Byte → Instr) : List Byte → Except DecodeError (Instr × List Byte)
  | b :: rest => .ok (mk b, rest)
  | [] => .error (.tooShort f)

/-- The REFERENCE format (30_encoding.md R74). -/
def decodeReference (w : DictIndex) : List Byte → Except DecodeError (Instr × List Byte)
  | b0 :: b1 :: rest => .ok (referenceInstr w (be16 b0 b1), rest)
  | _ => .error (.tooShort .reference)

/-- The unit of format `f` at the head of `bytes`, with the bytes after it, at write position `w`. -/
def decode (f : Format) (w : DictIndex) (bytes : List Byte) : Except DecodeError (Instr × List Byte) :=
  match f with
  | .header => decodeHeader bytes
  | .raw => decodeByte .raw Instr.raw bytes
  | .control => decodeByte .control Instr.ctrl bytes
  | .literal => decodeByte .literal Instr.lit bytes
  | .reference => decodeReference w bytes

/-! ### The encoder -/

/-- The format of each row (30_encoding.md R80). -/
def Instr.format : Instr → Format
  | .hdrLzfu _ _ _ => .header
  | .hdrMela _ _ _ => .header
  | .raw _ => .raw
  | .ctrl _ => .control
  | .lit _ => .literal
  | .ref _ _ => .reference
  | .endRef _ _ => .reference

/-- The 16 header bytes (30_encoding.md R66). -/
def encodeHeader (h : RawHeader) : List Byte :=
  le32Bytes h.compressedSize ++ le32Bytes h.rawSize ++ le32Bytes h.kindRaw ++ le32Bytes h.checksum

/-- The bytes of an instruction in input order (30_encoding.md R66, R70, R72, R73, R83). -/
def Instr.encode : Instr → List Byte
  | .hdrLzfu size rawSize check => encodeHeader ⟨size, rawSize, magicCompressed, check⟩
  | .hdrMela size rawSize check => encodeHeader ⟨size, rawSize, magicUncompressed, check⟩
  | .raw b => [b]
  | .ctrl c => [c]
  | .lit b => [b]
  | .ref offset rawLen => be16Bytes (mkToken offset rawLen)
  | .endRef offset rawLen => be16Bytes (mkToken offset rawLen)

/-- Input bytes of a control byte `c` and its first `n` tokens: one each, and one more for each reference
(30_encoding.md R77). -/
def groupPrefixBytes (c : Byte) (n : Nat) : Nat :=
  1 + n + ((List.range n).filter (fun i => c.getLsbD i)).length

/-- Input bytes of a complete group with control byte `c`: `1 + 8 + popcount(c)` (30_encoding.md R77). -/
def groupBytes (c : Byte) : Nat := groupPrefixBytes c 8

/-! ### The opcode table's numbering (log 13) -/

/-- The format the table's bit count names: 8 bits RAW, CTRL and LIT share, and no bit of theirs tells them apart
(30_encoding.md R79), so 8 bits are read as the CONTROL unit a compressed payload begins with. -/
def tableFormat (nbits : Nat) : Format :=
  if nbits ≤ 8 then .control else if nbits ≤ 16 then .reference else .header

/-- Byte `j` of the number `w`, byte 0 the least significant. -/
def natByte (w j : Nat) : Byte := BitVec.ofNat 8 (w / 256 ^ j)

/-- The bytes, in input order, of the unit whose bits are `w`: a header is little-endian words, first word lowest
(20_memory.md R47); a token is one 16-bit word stored high byte first (R48). -/
def tableBytes (nbits w : Nat) : List Byte :=
  match tableFormat nbits with
  | .header => (List.range 16).map (natByte (w % 2 ^ nbits))
  | .reference => [natByte (w % 2 ^ nbits) 1, natByte (w % 2 ^ nbits) 0]
  | _ => [natByte (w % 2 ^ nbits) 0]

/-- The write position after reset, 207, at which the table's words are decoded (10_state.md R28). -/
def resetWriteOffset : DictIndex := 207#12

/-- The instruction the decoder reads from a unit whose bits are `w`. -/
def decodeTableWord (nbits w : Nat) : Option Instr :=
  match decode (tableFormat nbits) resetWriteOffset (tableBytes nbits w) with
  | .ok (i, _) => some i
  | .error _ => none

end Sys2Proof
end

