-- ==== Sys2Proof/Machine/Operands.lean ====
section
/-!
DEFINITION. The operand forms: what a step computes from the fields of a unit and from the header registers.
-/

namespace Sys2Proof.Machine

/-- `actualLength = rawLength + 2`, in 2..17 (30_encoding.md R75). -/
def actualLength (rawLen : Nibble) : Nat := rawLen.toNat + 2

/-- The kind a header's kind field selects, if any (40_header_parser.md R88). -/
def kindOf (kindRaw : Word32) : Option Kind :=
  if kindRaw = magicCompressed then some .compressed
  else if kindRaw = magicUncompressed then some .uncompressed
  else none

/-- `MIN_SIZE_ANY` (00_scope.md R6). -/
def minSizeAny : Word32 := 0x0C#32

/-- `MIN_SIZE_COMPRESSED` (00_scope.md R6). -/
def minSizeCompressed : Word32 := 0x10#32

/-- The size check of 40_header_parser.md R89 fails. -/
def sizeTooSmall (k : Kind) (size : Word32) : Bool :=
  decide (size < minSizeAny) || (decide (k = .compressed) && decide (size < minSizeCompressed))

/-- `bound` as a Compressed header sets it (10_state.md R23), for an input of `n` bytes. -/
def loopBoundValue (b : LoopBound) (n : Nat) (compressedSize : Word32) : Nat :=
  match b with
  | .availableInput => n
  | .declaredSize => min n (4 + compressedSize.toNat)

/-- `NextTokenPhase(c, i)` (00_scope.md R14), for `i` in 0..8. -/
def nextTokenPhase (c : Byte) (i : Nat) : Phase :=
  if i = 8 then .ctrl else if c.getLsbD i then .ref else .lit

end Sys2Proof.Machine
end

