-- ==== Sys2Proof/Machine/Seed.lean ====
section
/-!
DEFINITION. The seed table (10_state.md R26): the 207 bytes that fill cells 0..206 at reset. Cells 0..20 are sourced;
cells 21..206 stand in the spec from general knowledge (PRESUMED, log 5).
-/

namespace Sys2Proof.Machine

/-- `SEED`, row by row as 10_state.md R26 lists it. -/
def seed : List Byte :=
  [0x7B, 0x5C, 0x72, 0x74, 0x66, 0x31, 0x5C, 0x61, 0x6E, 0x73, 0x69, 0x5C, 0x6D, 0x61, 0x63, 0x5C] ++
  [0x64, 0x65, 0x66, 0x66, 0x30, 0x5C, 0x64, 0x65, 0x66, 0x74, 0x61, 0x62, 0x37, 0x32, 0x30, 0x7B] ++
  [0x5C, 0x66, 0x6F, 0x6E, 0x74, 0x74, 0x62, 0x6C, 0x3B, 0x7D, 0x7B, 0x5C, 0x66, 0x30, 0x5C, 0x66] ++
  [0x6E, 0x69, 0x6C, 0x20, 0x5C, 0x66, 0x72, 0x6F, 0x6D, 0x61, 0x6E, 0x20, 0x5C, 0x66, 0x73, 0x77] ++
  [0x69, 0x73, 0x73, 0x20, 0x5C, 0x66, 0x6D, 0x6F, 0x64, 0x65, 0x72, 0x6E, 0x20, 0x5C, 0x66, 0x73] ++
  [0x63, 0x72, 0x69, 0x70, 0x74, 0x20, 0x5C, 0x66, 0x64, 0x65, 0x63, 0x6F, 0x72, 0x20, 0x4D, 0x53] ++
  [0x20, 0x53, 0x61, 0x6E, 0x73, 0x20, 0x53, 0x65, 0x72, 0x69, 0x66, 0x53, 0x79, 0x6D, 0x62, 0x6F] ++
  [0x6C, 0x41, 0x72, 0x69, 0x61, 0x6C, 0x54, 0x69, 0x6D, 0x65, 0x73, 0x20, 0x4E, 0x65, 0x77, 0x20] ++
  [0x52, 0x6F, 0x6D, 0x61, 0x6E, 0x43, 0x6F, 0x75, 0x72, 0x69, 0x65, 0x72, 0x7B, 0x5C, 0x63, 0x6F] ++
  [0x6C, 0x6F, 0x72, 0x74, 0x62, 0x6C, 0x5C, 0x72, 0x65, 0x64, 0x30, 0x5C, 0x67, 0x72, 0x65, 0x65] ++
  [0x6E, 0x30, 0x5C, 0x62, 0x6C, 0x75, 0x65, 0x30, 0x0D, 0x0A, 0x5C, 0x70, 0x61, 0x72, 0x20, 0x5C] ++
  [0x70, 0x61, 0x72, 0x64, 0x5C, 0x70, 0x6C, 0x61, 0x69, 0x6E, 0x5C, 0x66, 0x30, 0x5C, 0x66, 0x73] ++
  [0x32, 0x30, 0x5C, 0x62, 0x5C, 0x69, 0x5C, 0x75, 0x5C, 0x74, 0x61, 0x62, 0x5C, 0x74, 0x78]

end Sys2Proof.Machine
end

