-- ==== Sys2Proof/Machine/Ops.lean ====
section
/-!
DEFINITION. The named operations over the dictionary, the input cursor, the output and the result: the primitives of
00_scope.md R11 to R13. Raising an error, the only exception of this hardware, is the one operation `State.raise`;
there is no return from it (60_exceptions.md R128).
-/

namespace Sys2Proof.Machine

/-! ### The dictionary's contents -/

/-- What an unlisted cell holds: the seed byte at 0..206, no value at 207..4095 (10_state.md R25). -/
def Memory.initial (a : Nat) : Option Byte := seed[a]?

/-- The value of cell `a`, if it has one. -/
def Memory.read : Memory → Nat → Option Byte
  | [], a => Memory.initial a
  | (k, b) :: rest, a => if k = a then some b else Memory.read rest a

/-- Lists `v` at `a`, in address order, in place of what was listed there. -/
def Memory.insert : Memory → Nat → Byte → Memory
  | [], a, v => [(a, v)]
  | (k, b) :: rest, a, v =>
    if a < k then (a, v) :: (k, b) :: rest
    else if a = k then (a, v) :: rest
    else (k, b) :: Memory.insert rest a v

/-- Lists nothing at `a`. -/
def Memory.erase (m : Memory) (a : Nat) : Memory := m.filter (fun c => decide (c.1 ≠ a))

/-- Writes `v` to cell `a`; a cell that then holds what an unlisted one holds is not listed. -/
def Memory.write (m : Memory) (a : Nat) (v : Byte) : Memory :=
  if Memory.initial a = some v then m.erase a else m.insert a v

/-- The canonical form: addresses below 4096 and strictly rising, no entry equal to what an unlisted cell holds. -/
abbrev Memory.wf (m : Memory) : Prop :=
  m.Pairwise (fun c d => c.1 < d.1) ∧ ∀ c ∈ m, c.1 < 4096 ∧ Memory.initial c.1 ≠ some c.2

/-! ### Draws (00_scope.md R13) -/

/-- `draw_u8()`: a free byte, and the state that has used it. -/
def State.drawU8 (s : State) : Byte × State := (Config.drawU8 s.draws, { s with draws := s.draws + 1 })

/-- `draw_u32()`: a free 32-bit value, and the state that has used it. -/
def State.drawU32 (s : State) : Word32 × State := (Config.drawU32 s.draws, { s with draws := s.draws + 1 })

/-! ### Dictionary primitives (00_scope.md R12) -/

/-- The byte a written cell holds; `none` for a never-written one. -/
def State.cellValue (s : State) (i : DictIndex) : Option Byte :=
  if s.written i then s.dict.read i.toNat else none

/-- The unwritten-cell value: the `DICT_FILL` byte if there is one, else a draw (00_scope.md R12). -/
def State.unwrittenValue (s : State) : Byte × State :=
  match s.params.dictFill with
  | some v => (v, s)
  | none => s.drawU8

/-- `DictRead(i)` (00_scope.md R12, 20_memory.md R57): the byte, and the state after a draw if there was one. -/
def State.dictRead (s : State) (i : DictIndex) : Byte × State :=
  match s.cellValue i with
  | some v => (v, s)
  | none => s.unwrittenValue

/-- `DictWrite(i, v)` (00_scope.md R12). -/
def State.dictWrite (s : State) (i : DictIndex) (v : Byte) : State :=
  { s with dict := s.dict.write i.toNat v }

/-- `AdvanceW()` (00_scope.md R12). -/
def State.advanceW (s : State) : State :=
  { s with w := s.w + 1#12, wrapped := s.wrapped || decide (s.w + 1#12 = 0#12) }

/-- `r <- (r + 1) mod 4096` (42_compressed_path.md R110). -/
def State.advanceR (s : State) : State := { s with r := s.r + 1#12 }

/-! ### Input primitives (00_scope.md R11) -/

/-- The input from the cursor on. -/
def State.inputRest (s : State) : List Byte := s.input.drop s.cur

/-- `cur <- cur + n`. -/
def State.advanceCur (s : State) (n : Nat) : State := { s with cur := s.cur + n }

/-! ### Output and ending primitives (00_scope.md R13) -/

/-- `Emit(b)`. -/
def State.emit (s : State) (b : Byte) : State := { s with out := s.out ++ [b] }

/-- `phase <- p`. -/
def State.setPhase (s : State) (p : Phase) : State := { s with phase := p }

/-- `finish(reason)`. -/
def State.finish (s : State) (reason : TermReason) : State :=
  { s with phase := .done, result := some (.ok s.out), termReason := reason }

/-- `raise E(v)`: error entry (60_exceptions.md R127). Nothing is saved, no mode changes, and the output is not
delivered (R123). What the step has written before it raises stays (log 11). -/
def State.raise (s : State) (e : RunError) : State :=
  { s with phase := .done, result := some (.err e) }

/-- The numeric code of an error kind (60_exceptions.md R118; the numbers are the spec's labelling, D13). -/
def RunError.code : RunError → Nat
  | .invalidSize _ => 1
  | .invalidCompType _ => 2
  | .invalidDictionaryReference => 3
  | .corrupted => 4

/-- The value an error carries (60_exceptions.md R118). -/
def RunError.value : RunError → Option Word32
  | .invalidSize size => some size
  | .invalidCompType rawValue => some rawValue
  | .invalidDictionaryReference => none
  | .corrupted => none

/-- The code the host reads from a result: 0 for `Ok` (60_exceptions.md R118). -/
def RunResult.code : RunResult → Nat
  | .ok _ => 0
  | .err e => e.code

/-- What is observed of a run: `result`, and the model-only reason (10_state.md R41). -/
def State.observation (s : State) : Option RunResult × TermReason := (s.result, s.termReason)

/-! ### Compounds of the primitives that two steps share -/

/-- `Emit(v); DictWrite(w, v); AdvanceW()`, as LIT and COPY do it (42_compressed_path.md R104, R110). -/
def State.produce (s : State) (v : Byte) : State := ((s.emit v).dictWrite s.w v).advanceW

/-- `bitIndex <- bitIndex + 1` (10_state.md R33). -/
def State.advanceBit (s : State) : State := { s with bitIndex := s.bitIndex + 1 }

/-- `phase <- NextTokenPhase(ctrl, bitIndex)` (42_compressed_path.md R103). -/
def State.toNextToken (s : State) : State := s.setPhase (nextTokenPhase s.ctrl s.bitIndex)

/-- A step rule is enabled in one phase only (10_state.md R20): in phase `p` the step goes to `t`, elsewhere the
meaning stops by name (log 8). -/
def State.enabledIn (s : State) (p : Phase) (t : State) : Host.Outcome State Fault Refusal :=
  if s.phase = p then .next t else .fault .notEnabled

end Sys2Proof.Machine
end

