-- ==== Sys2Proof/Machine/ControlByte.lean ====
section
/-!
DEFINITION. The CTRL step (42_compressed_path.md R102), and soft termination, which it shares with the token steps
(R112).
-/

namespace Sys2Proof.Machine

/-- `CTRL`: a new group begins with token 0 (42_compressed_path.md R102). -/
def execCtrl (c : Byte) (s : State) : Host.Outcome State Fault Refusal :=
  s.enabledIn .ctrl ({ s.advanceCur 1 with ctrl := c, bitIndex := 0 } : State).toNextToken

/-- Soft termination of a CTRL, LIT or REF step that lacks its input (42_compressed_path.md R112). -/
def softTerminateStep (s : State) : State := s.finish .endOfInput

end Sys2Proof.Machine
end

