-- ==== Sys2Proof/Machine/HeaderParser.lean ====
section
/-!
DEFINITION. header_parser: the HEADER step (40_header_parser.md R85) after its fields are read, the meanings of
`HDR.LZFU` and `HDR.MELA`, and the short header.
-/

namespace Sys2Proof.Machine

/-- The four fields as read, the cursor past them (40_header_parser.md R87). `hdr.kind` is written by the kind check. -/
def State.storeHeader (s : State) (h : RawHeader) : State :=
  { s.advanceCur 16 with
    hdr := { s.hdr with
      compressedSize := h.compressedSize
      rawSize := h.rawSize
      kindRaw := h.kindRaw
      checksum := h.checksum } }

/-- `hdr.kind <- k` (40_header_parser.md R88). -/
def State.setKind (s : State) (k : Kind) : State := { s with hdr := { s.hdr with kind := some k } }

/-- Dispatch on the kind (40_header_parser.md R90). -/
def State.enterPayload (s : State) (k : Kind) : State :=
  match k with
  | .uncompressed => s.setPhase .pass
  | .compressed =>
    { s with
      bound := loopBoundValue s.params.loopBound s.input.length s.hdr.compressedSize
      phase := .ctrl }

/-- The size check under a known kind, then dispatch (40_header_parser.md R89, R90). -/
def State.checkSize (s : State) (k : Kind) : State :=
  if sizeTooSmall k s.hdr.compressedSize then s.raise (.invalidSize s.hdr.compressedSize) else s.enterPayload k

/-- The HEADER step on a header of fields `h` (40_header_parser.md R85), the checks in the order that
`HEADER_ERROR_ORDER` selects (R91). DEDUCED (log 11), unsafe: a step that raises has already written `cur` and the
`hdr` fields, as R85's pseudocode does, although 60_exceptions.md R127 says 'nothing else'. -/
def headerStep (h : RawHeader) (s : State) : State :=
  let t := s.storeHeader h
  if s.params.headerErrorOrder = .sizeFirst ∧ h.compressedSize < minSizeAny then
    t.raise (.invalidSize h.compressedSize)
  else
    match kindOf h.kindRaw with
    | some k => (t.setKind k).checkSize k
    | none => t.raise (.invalidCompType h.kindRaw)

/-- `HDR.LZFU` (40_header_parser.md R85). -/
def execHdrLzfu (compressedSize rawSize checksum : Word32) (s : State) : Host.Outcome State Fault Refusal :=
  s.enabledIn .header (headerStep ⟨compressedSize, rawSize, magicCompressed, checksum⟩ s)

/-- `HDR.MELA` (40_header_parser.md R85). -/
def execHdrMela (compressedSize rawSize checksum : Word32) (s : State) : Host.Outcome State Fault Refusal :=
  s.enabledIn .header (headerStep ⟨compressedSize, rawSize, magicUncompressed, checksum⟩ s)

/-- Fewer than 16 bytes remain: `InvalidSize` with a drawn value, and nothing is read (40_header_parser.md R86). -/
def shortHeaderStep (s : State) : State := s.drawU32.2.raise (.invalidSize s.drawU32.1)

/-- A header whose kind field is neither magic: no row of the opcode map, the same HEADER step (30_encoding.md R80). -/
def illegalHeaderStep (h : RawHeader) (s : State) : State := headerStep h s

end Sys2Proof.Machine
end

