-- ==== Sys2Proof/Machine/Literal.lean ====
section
/-!
DEFINITION. The LIT step (42_compressed_path.md R104).
-/

namespace Sys2Proof.Machine

/-- `LIT`: the byte goes to the output and to the dictionary at `w` (42_compressed_path.md R104). -/
def execLit (b : Byte) (s : State) : Host.Outcome State Fault Refusal :=
  s.enabledIn .lit ((s.advanceCur 1).produce b).advanceBit.toNextToken

end Sys2Proof.Machine
end

