-- ==== Sys2Proof/Machine/PassThrough.lean ====
section
/-!
DEFINITION. The uncompressed path (41_uncompressed_path.md R95): the meaning of `RAW` and the end of the payload.
-/

namespace Sys2Proof.Machine

/-- `RAW`: the byte goes to the output unchanged (41_uncompressed_path.md R95). -/
def execRaw (b : Byte) (s : State) : Host.Outcome State Fault Refusal :=
  s.enabledIn .pass ((s.emit b).advanceCur 1)

/-- The PASS step at `cur = N` (41_uncompressed_path.md R95). -/
def passEndStep (s : State) : State := s.finish .passThroughDone

end Sys2Proof.Machine
end

