-- ==== Sys2Proof/Machine/Reference.lean ====
section
/-!
DEFINITION. The REF step on a token (42_compressed_path.md R106), which is the meaning of both `REF` and `END`, and
the COPY step that moves one byte of a reference (R110).
-/

namespace Sys2Proof.Machine

/-- The token as read, the cursor past it (42_compressed_path.md R106), on every way out of the step (log 11). -/
def State.storeToken (s : State) (offset : DictIndex) (rawLen : Nibble) : State :=
  { s.advanceCur 2 with tok := mkToken offset rawLen }

/-- A copy from `offset` of `actualLength` bytes begins (42_compressed_path.md R106). -/
def State.startCopy (s : State) (offset : DictIndex) (rawLen : Nibble) : State :=
  { s with r := offset, copyRemaining := actualLength rawLen, bitIndex := s.bitIndex + 1, phase := .copy }

/-- The REF step after its token is read: the sentinel test, then the strict check, then the copy
(42_compressed_path.md R106 to R108, 70_reset_and_hazards.md R143). DEDUCED (log 11), unsafe: a step that raises has
already written `cur` and `tok`, as R106's pseudocode does, although 60_exceptions.md R127 says 'nothing else'. -/
def tokenStep (offset : DictIndex) (rawLen : Nibble) (s : State) : State :=
  let t := s.storeToken offset rawLen
  if s.isSentinel offset then t.finish .sentinel
  else if s.strictViolation offset then t.raise .invalidDictionaryReference
  else t.startCopy offset rawLen

/-- `REF` (42_compressed_path.md R106). A token is `REF` or `END` by the test its own step makes (log 18). -/
def execRef (offset : DictIndex) (rawLen : Nibble) (s : State) : Host.Outcome State Fault Refusal :=
  s.enabledIn .ref (tokenStep offset rawLen s)

/-- `END` (42_compressed_path.md R106, R108). A token is `REF` or `END` by the test its own step makes (log 18). -/
def execEndRef (offset : DictIndex) (rawLen : Nibble) (s : State) : Host.Outcome State Fault Refusal :=
  s.enabledIn .ref (tokenStep offset rawLen s)

/-- One byte of a copy: read at `r`, then emit and write it at `w`, then both offsets advance
(42_compressed_path.md R110, 20_memory.md R58). -/
def copyByte (s : State) : State := ((s.dictRead s.r).2.produce (s.dictRead s.r).1).advanceR

/-- The COPY step (42_compressed_path.md R110): after the last byte, the next token of the group. -/
def copyStep (s : State) : State :=
  let t := { copyByte s with copyRemaining := s.copyRemaining - 1 }
  if t.copyRemaining = 0 then t.toNextToken else t

end Sys2Proof.Machine
end

