-- ==== Sys2Proof/Machine/Dispatch.lean ====
section
/-!
DEFINITION. exec: one arm per instruction, each one call of its meaning.
-/

namespace Sys2Proof.Machine

def exec (i : Instr) (s : State) : Host.Outcome State Fault Refusal :=
  match i with
  | .hdrLzfu compressedSize rawSize checksum => Sys2Proof.Machine.execHdrLzfu compressedSize rawSize checksum s
  | .hdrMela compressedSize rawSize checksum => Sys2Proof.Machine.execHdrMela compressedSize rawSize checksum s
  | .raw b => Sys2Proof.Machine.execRaw b s
  | .ctrl c => Sys2Proof.Machine.execCtrl c s
  | .lit b => Sys2Proof.Machine.execLit b s
  | .ref offset rawLen => Sys2Proof.Machine.execRef offset rawLen s
  | .endRef offset rawLen => Sys2Proof.Machine.execEndRef offset rawLen s

end Sys2Proof.Machine
end

