-- ==== Sys2Proof/Machine/Fetch.lean ====
section
/-!
DEFINITION. What the next step runs: the phase selects the format (10_state.md R20, 30_encoding.md R65), availability
is tested for the whole unit before any byte of it is taken (70_reset_and_hazards.md R145), then the unit is decoded.
-/

namespace Sys2Proof.Machine

/-- What the next step runs. -/
inductive Fetched where
  /-- The instruction read at the cursor. -/
  | instr (i : Instr)
  /-- Fewer than 16 bytes remain in phase HEADER (40_header_parser.md R86). -/
  | shortHeader
  /-- A header whose kind field is neither magic (30_encoding.md R68). -/
  | illegalHeader (h : RawHeader)
  /-- The pass-through has reached `N` (41_uncompressed_path.md R95). -/
  | passEnd
  /-- The compressed path lacks the next unit's bytes (42_compressed_path.md R112). -/
  | exhausted
  /-- One byte of the copy in progress (42_compressed_path.md R110). -/
  | copy
  /-- The run has ended (60_exceptions.md R128). -/
  | ended
  /-- The unit lies outside 0..N-1 although `bound` admits it; no run reaches this (log 9). -/
  | outOfRange
  deriving DecidableEq, Repr

/-- The unit of format `f` at the cursor. -/
def State.fetchUnit (s : State) (f : Format) : Fetched :=
  match decode f s.w s.inputRest with
  | .ok (i, _) => .instr i
  | .error (.illegalKind h) => .illegalHeader h
  | .error (.tooShort _) => .outOfRange

/-- A unit of the compressed path, if the readable input holds all of it (00_scope.md R11, 20_memory.md R49). -/
def State.fetchBounded (s : State) (f : Format) : Fetched :=
  if s.inAvail f.size then s.fetchUnit f else .exhausted

/-- What the next step runs, by phase (10_state.md R20). -/
def State.fetch (s : State) : Fetched :=
  match s.phase with
  | .header => if s.input.length - s.cur < 16 then .shortHeader else s.fetchUnit .header
  | .pass => if s.cur < s.input.length then s.fetchUnit .raw else .passEnd
  | .ctrl => s.fetchBounded .control
  | .lit => s.fetchBounded .literal
  | .ref => s.fetchBounded .reference
  | .copy => .copy
  | .done => .ended

/-- Bytes stored in `input` from position `at` on, the input grown with zeros up to `at` if it is shorter. -/
def placeBytes (input : List Byte) (pos : Nat) (bytes : List Byte) : List Byte :=
  input.take pos ++ List.replicate (pos - input.length) 0#8 ++ bytes ++ input.drop (pos + bytes.length)

/-- The phase that reads a unit of format `f`, the present one if it reads a unit of that size (log 13). -/
def phaseReading (p : Phase) : Format → Phase
  | .header => .header
  | .reference => .ref
  | _ => match p with
    | .pass => .pass
    | .lit => .lit
    | _ => .ctrl

end Sys2Proof.Machine
end

