-- ==== Sys2Proof/Machine/Step.lean ====
section
/-!
DEFINITION. One step of the engine (10_state.md R16, R20), and the state in which a given unit is the next to run.
-/

namespace Sys2Proof.Machine

/-- The step that the phase enables: the instruction at the cursor, or one of the steps that consume no instruction of
the opcode map. -/
def step (s : State) : Host.Outcome State Fault Refusal :=
  match s.fetch with
  | .instr i => exec i s
  | .shortHeader => .next (shortHeaderStep s)
  | .illegalHeader h => .next (illegalHeaderStep h s)
  | .passEnd => .next (passEndStep s)
  | .exhausted => .next (softTerminateStep s)
  | .copy => .next (copyStep s)
  | .ended => .fault .runEnded
  | .outOfRange => .fault .inputOutOfRange

/-- `s` with the unit of bits `w` at the cursor, in a phase that reads it and with `bound` past it (log 13, log 14). -/
def State.withFetchWord (s : State) (nbits w : Nat) : State :=
  { s with
    phase := phaseReading s.phase (tableFormat nbits)
    input := placeBytes s.input s.cur (tableBytes nbits w)
    bound := max s.bound (s.cur + (tableBytes nbits w).length) }

end Sys2Proof.Machine
end

