-- ==== Sys2Proof/Assembler.lean ====
section
/-!
DEFINITION. The spec's own notation for writing streams (30_encoding.md R81, R82): units as data, the pseudo
instructions, the control bytes the assembler computes, and the header it emits. It refuses operands by name. The
machine does not use it; it serves to write streams down.
-/

namespace Sys2Proof

/-- A token line of the notation (30_encoding.md R81, R82). -/
inductive AsmToken where
  /-- `LIT <u8>`. -/
  | lit (b : Byte)
  /-- `REF <offset>, <length>`. -/
  | ref (offset length : Nat)
  /-- `END`, the sentinel at the present write position (30_encoding.md R82). -/
  | sentinel
  /-- `RUN <u8 b>, <n>` (30_encoding.md R82). -/
  | run (b : Byte) (n : Nat)
  deriving DecidableEq, Repr

/-- Why the assembler refuses (30_encoding.md R81, R82). -/
inductive AsmError where
  /-- `REF` takes offset 0..4095 and length 2..17. -/
  | refOperands
  /-- `RUN` takes n in 3..18. -/
  | runOperands
  /-- `csize=auto` below 0x10 under kind LZFu. -/
  | autoSizeBelowMinimum
  deriving DecidableEq, Repr

/-- The assembler's static write position after `produced` bytes (30_encoding.md R82). -/
def asmW (produced : Nat) : Nat := (207 + produced) % 4096

/-- The core token of offset `o` and length `l`: a `REF` as the notation writes it; `END` is one too. -/
def asmRef (o l : Nat) : Instr := .ref (BitVec.ofNat 12 o) (BitVec.ofNat 4 (l - 2))

/-- The bytes that a written `REF o, l` adds to the static count. One at `W` is an `END` there and produces none, so
it counts as the `END` line does; how lines after it count the spec does not say: DESIGN CHOICE (log 23). -/
def refProduces (produced o l : Nat) : Nat := if o = asmW produced then 0 else l

/-- The core tokens a line expands to, with the bytes produced after it (30_encoding.md R82). Lines after an `END`, in
either spelling, count on from what stood before it (log 23). -/
def expandToken (produced : Nat) : AsmToken → Except AsmError (List Instr × Nat)
  | .lit b => .ok ([.lit b], produced + 1)
  | .ref o l => if o < 4096 ∧ 2 ≤ l ∧ l ≤ 17 then .ok ([asmRef o l], produced + refProduces produced o l)
    else .error .refOperands
  | .sentinel =>
    .ok ([.endRef (BitVec.ofNat 12 (asmW produced)) 0#4], produced)
  | .run b n =>
    if 3 ≤ n ∧ n ≤ 18 then .ok ([.lit b, asmRef (asmW produced) (n - 1)], produced + n) else .error .runOperands

/-- Every line expanded, in order. -/
def expandTokens : Nat → List AsmToken → Except AsmError (List Instr)
  | _, [] => .ok []
  | produced, line :: rest =>
    match expandToken produced line with
    | .error e => .error e
    | .ok (units, produced') =>
      match expandTokens produced' rest with
      | .error e => .error e
      | .ok more => .ok (units ++ more)

/-- A token is announced by a set control bit exactly when it is a reference (30_encoding.md R81). -/
def announcedSet (i : Instr) : Bool := decide (i.format = .reference)

/-- The control byte of a run of at most eight tokens: bit `i` is set exactly when token `i` is a reference. -/
def controlByteOf : List Instr → Byte
  | [] => 0#8
  | i :: rest => (controlByteOf rest) <<< 1 ||| (if announcedSet i then 1#8 else 0#8)

/-- Cuts the tokens into runs of eight and puts its control byte before each run (30_encoding.md R81), for at most
`fuel` runs. -/
def groupUnits : Nat → List Instr → List Instr
  | 0, _ => []
  | _ + 1, [] => []
  | fuel + 1, i :: rest =>
    .ctrl (controlByteOf ((i :: rest).take 8)) :: ((i :: rest).take 8 ++ groupUnits fuel ((i :: rest).drop 8))

/-- The bytes of a sequence of units. -/
def encodeUnits (units : List Instr) : List Byte := (units.map Instr.encode).flatten

/-- The payload bytes of the token lines, with computed control bytes (30_encoding.md R81). -/
def assembleTokens (lines : List AsmToken) : Except AsmError (List Byte) :=
  match expandTokens 0 lines with
  | .error e => .error e
  | .ok units => .ok (encodeUnits (groupUnits units.length units))

/-- `csize=`: written out or `auto` (30_encoding.md R81). -/
inductive AsmSize where
  | given (size : Word32)
  | auto
  deriving DecidableEq, Repr

/-- The value of `csize=auto` for a payload of `length` bytes (30_encoding.md R81). Where it does not fit in a u32 the
spec is silent, and the value is free: DESIGN CHOICE (log 22). -/
def autoSize (length : Nat) : Word32 :=
  if 12 + length < 2 ^ 32 then BitVec.ofNat 32 (12 + length) else Config.autoSizeBeyondU32 (12 + length)

/-- A whole stream: the `HDR` line, then the payload (30_encoding.md R81). The refusal is about the number `12 + length` itself, which
is not below 0x10 where it does not fit in a u32 (log 22). -/
def assemble (kindRaw : Word32) (size : AsmSize) (rawSize checksum : Word32) (payload : List Byte) :
    Except AsmError (List Byte) :=
  match size with
  | .given n => .ok (encodeHeader ⟨n, rawSize, kindRaw, checksum⟩ ++ payload)
  | .auto =>
    if kindRaw = magicCompressed ∧ 12 + payload.length < 0x10 then .error .autoSizeBelowMinimum
    else .ok (encodeHeader ⟨autoSize payload.length, rawSize, kindRaw, checksum⟩ ++ payload)

end Sys2Proof
end

