-- ==== Sys2Proof/Machine/Functional.lean ====
section
/-!
DEFINITION. The functional form of the whole operation, `decompress` (42_compressed_path.md R116): the loops of the
source over the same primitives, for claims that the step rules compute it. The step rules are the machine; where the
two would disagree the step rules govern.
-/

namespace Sys2Proof.Machine

/-- `repeat len times` of the copy (42_compressed_path.md R116). -/
def copyBytes : Nat → State → State
  | 0, s => s
  | n + 1, s => copyBytes n (copyByte s)

/-- The tokens of one group that remain, `n` of them, so that the next is token `8 - n`: either the run ends with a
result, or the group is finished (42_compressed_path.md R116). -/
def groupTokens (c : Byte) : Nat → State → Except RunResult State
  | 0, s => .ok s
  | n + 1, s =>
    if controlBit c (8 - (n + 1)) then
      match s.inputRest with
      | b0 :: b1 :: _ =>
        if s.inAvail 2 then
          let offset := tokenOffset (be16 b0 b1)
          let len := actualLength (tokenRawLen (be16 b0 b1))
          if s.isSentinel offset then .error (.ok s.out)
          else if s.strictViolation offset then .error (.err .invalidDictionaryReference)
          else groupTokens c n (copyBytes len { s.advanceCur 2 with r := offset })
        else .error (.ok s.out)
      | _ => .error (.ok s.out)
    else
      match s.inputRest with
      | v :: _ =>
        if s.inAvail 1 then groupTokens c n ((s.advanceCur 1).produce v) else .error (.ok s.out)
      | _ => .error (.ok s.out)

/-- The outer loop, for at most `fuel` groups; each group takes at least its control byte, so the input's length is
fuel enough (42_compressed_path.md R116). -/
def groupLoop : Nat → State → RunResult
  | 0, s => .ok s.out
  | fuel + 1, s =>
    match s.inputRest with
    | c :: _ =>
      if s.inAvail 1 then
        match groupTokens c 8 (s.advanceCur 1) with
        | .error res => res
        | .ok t => groupLoop fuel t
      else .ok s.out
    | [] => .ok s.out

/-- The payload of a header that passed its checks (42_compressed_path.md R116). -/
def payloadResult (s : State) : RunResult :=
  match s.hdr.kind with
  | some .uncompressed => .ok s.inputRest
  | _ => groupLoop s.input.length s

/-- `decompress(In)` under parameters `p` (42_compressed_path.md R116). -/
def decompress (p : Params) (input : List Byte) : RunResult :=
  match readHeader input with
  | none => .err (.invalidSize (State.start p input).drawU32.1)
  | some (h, _) =>
    let s := headerStep h (State.start p input)
    match s.result with
    | some res => res
    | none => payloadResult s

end Sys2Proof.Machine
end

