-- ==== Sys2Proof/Safety.lean ====
section
/-!
DEFINITION. The terms that claims use: the next state of an outcome, a run of the host's `Core.run` from an invocation's
start, and the invariant of every state a run reaches.
-/

namespace Sys2Proof

open Machine

/-- The next state of an outcome, if it is one. -/
def nextState : Host.Outcome State Fault Refusal → Option State
  | .next s => some s
  | .fault _ => none
  | .refused _ => none

/-- `k` steps of an invocation with parameters `p` on `input` (60_exceptions.md R136). -/
def runFrom (p : Params) (input : List Byte) (k : Nat) : Host.Outcome State Fault Refusal :=
  Host.Core.run core k (State.start p input)

/-- The phases of the compressed path (42_compressed_path.md R100). -/
def Machine.Phase.inCompressedPath : Phase → Bool
  | .header => false
  | .pass => false
  | .ctrl => true
  | .lit => true
  | .ref => true
  | .copy => true
  | .done => false

/-- The phase that enables an instruction's step rule (10_state.md R20, 30_encoding.md R80). -/
def Instr.phase : Instr → Phase
  | .hdrLzfu _ _ _ => .header
  | .hdrMela _ _ _ => .header
  | .raw _ => .pass
  | .ctrl _ => .ctrl
  | .lit _ => .lit
  | .ref _ _ => .ref
  | .endRef _ _ => .ref

/-- What holds of every state a run reaches. -/
structure Machine.State.Inv (s : State) : Prop where
  /-- The dictionary's listing is canonical (log 4). -/
  dictCanonical : s.dict.wf
  /-- A cell has a value exactly when it is `Written` (10_state.md R27). -/
  writtenHasValue : ∀ i : DictIndex, (s.dict.read i.toNat).isSome = s.written i
  /-- `0 <= cur <= N` (10_state.md R22). -/
  cursorInInput : s.cur ≤ s.input.length
  /-- `bound` is in 0..N (10_state.md R18). -/
  boundInInput : s.bound ≤ s.input.length
  /-- `bitIndex` is in 0..8 (10_state.md R33). -/
  bitIndexRange : s.bitIndex ≤ 8
  /-- Before the header nothing has happened (10_state.md R39). -/
  headerFirst : s.phase = .header → s.cur = 0 ∧ s.out = [] ∧ s.hdr.kind = none
  /-- On the uncompressed path the output is the payload read so far (41_uncompressed_path.md R96). -/
  passOutput : s.phase = .pass →
    s.hdr.kind = some .uncompressed ∧ 16 ≤ s.cur ∧ s.out = (s.input.take s.cur).drop 16
  /-- The compressed path reads the payload below `bound` (42_compressed_path.md R113). -/
  compressedCursor : s.phase.inCompressedPath = true →
    s.hdr.kind = some .compressed ∧ 16 ≤ s.cur ∧ s.cur ≤ s.bound
  /-- In LIT the next token's control bit is clear (42_compressed_path.md R103). -/
  litBit : s.phase = .lit → s.bitIndex < 8 ∧ controlBit s.ctrl s.bitIndex = false
  /-- In REF the next token's control bit is set (42_compressed_path.md R103). -/
  refBit : s.phase = .ref → s.bitIndex < 8 ∧ controlBit s.ctrl s.bitIndex = true
  /-- `copyRemaining` is in 1..17 in COPY (42_compressed_path.md R110), and the read never meets the write (R111). -/
  copyRange : s.phase = .copy → 1 ≤ s.copyRemaining ∧ s.copyRemaining ≤ 17 ∧ 1 ≤ s.bitIndex ∧ s.r ≠ s.w
  /-- `copyRemaining` is 0 outside COPY (10_state.md R32). -/
  copyIdle : s.phase ≠ .copy → s.copyRemaining = 0
  /-- `result` is `None` exactly until DONE (10_state.md R35). -/
  resultAtDone : s.result.isSome = decide (s.phase = .done)
  /-- `Ok` delivers the output (00_scope.md R13). -/
  okDeliversOut : ∀ bytes, s.result = some (.ok bytes) → bytes = s.out
  /-- `Corrupted` is never raised (60_exceptions.md R122). -/
  neverCorrupted : s.result ≠ some (.err .corrupted)
  /-- The strict error occurs under STRICT_REFS only (60_exceptions.md R121). -/
  strictOnly : s.result = some (.err .invalidDictionaryReference) → s.params.strictRefs = true

end Sys2Proof
end

