-- ==== Sys2Proof/WellFormed.lean ====
section
/-!
DEFINITION. Which instructions are legal encodings, and at which write position a reference token is `REF` or `END`.
The operand types already hold exactly the encodable values, so these are the only checks the format asks for.
-/

namespace Sys2Proof

/-- The encoding is legal: a header's declared size is not below the minimum of its kind (30_encoding.md R69, R78).
Every value of every other field, byte and token is legal (R69 to R74, R78). -/
def Instr.legal : Instr → Bool
  | .hdrLzfu size _ _ => decide (0x10#32 ≤ size)
  | .hdrMela size _ _ => decide (0x0C#32 ≤ size)
  | .raw _ => true
  | .ctrl _ => true
  | .lit _ => true
  | .ref _ _ => true
  | .endRef _ _ => true

/-- The row of the opcode map that a reference token selects at write position `w` (30_encoding.md R76, R80):
`END` exactly when the offset equals `w`. The other rows do not depend on `w`. -/
def Instr.selectedAt (w : DictIndex) : Instr → Bool
  | .hdrLzfu _ _ _ => true
  | .hdrMela _ _ _ => true
  | .raw _ => true
  | .ctrl _ => true
  | .lit _ => true
  | .ref offset _ => decide (offset ≠ w)
  | .endRef offset _ => decide (offset = w)

/-- A well-formed instruction at write position `w`. -/
def Instr.wellFormed (w : DictIndex) (i : Instr) : Bool := i.legal && i.selectedAt w

end Sys2Proof
end

