-- ==== Sys2Proof/Certificates/Slice0/Obligations.lean ====
section
/-!
DEFINITION. The statements for the provers. Each docstring names the rule or the section of spec/ it formalises, and
says where a clause is a choice of the spec or of the model.
-/

open Sys2Proof Sys2Proof.Machine

/-! ### Encoding -/

/-- 30_encoding.md sections 2 to 4: the encoding of an instruction decodes to it, whatever follows it, in the context
that selects its row (30_encoding.md R76, R80). No operand bit is dropped, and ill-sized headers decode too. -/
def Obligations.DecodeOfEncode : Prop :=
  ∀ (w : DictIndex) (i : Instr) (rest : List Byte), i.selectedAt w = true →
    decode i.format w (i.encode ++ rest) = .ok (i, rest)

/-- 30_encoding.md sections 2 to 4: whatever decodes was the encoding of what was read, followed by what was left. -/
def Obligations.EncodeOfDecode : Prop :=
  ∀ (f : Format) (w : DictIndex) (bytes rest : List Byte) (i : Instr), decode f w bytes = .ok (i, rest) →
    bytes = i.encode ++ rest ∧ i.format = f ∧ i.selectedAt w = true

/-- 30_encoding.md section 5: the decoder refuses only input that is too short, and headers whose kind field (bytes
8 to 11) is neither magic; no control byte, literal or token is refused. -/
def Obligations.DecodeRefusesOnlyIllegal : Prop :=
  ∀ (f : Format) (w : DictIndex) (bytes : List Byte),
    (∃ e, decode f w bytes = .error e) ↔
      bytes.length < f.size ∨
      (f = .header ∧ (bytes.drop 8).take 4 ≠ [0x4C#8, 0x5A#8, 0x46#8, 0x75#8] ∧
        (bytes.drop 8).take 4 ≠ [0x4D#8, 0x45#8, 0x4C#8, 0x41#8])

/-- R47: header field `k` is input bytes `4k` to `4k+3`, the byte at the lowest address the least significant. -/
def Obligations.HeaderFieldsLittleEndian : Prop :=
  (∀ bytes : List Byte, 16 ≤ bytes.length →
    ∃ h, readHeader bytes = some (h, bytes.drop 16) ∧
      let le (k : Nat) : Nat := (bytes.getD (4 * k) 0#8).toNat + 256 * (bytes.getD (4 * k + 1) 0#8).toNat +
        65536 * (bytes.getD (4 * k + 2) 0#8).toNat + 16777216 * (bytes.getD (4 * k + 3) 0#8).toNat
      h.compressedSize.toNat = le 0 ∧ h.rawSize.toNat = le 1 ∧ h.kindRaw.toNat = le 2 ∧ h.checksum.toNat = le 3) ∧
  le32 0x4C#8 0x5A#8 0x46#8 0x75#8 = 0x75465A4C#32

/-- R74: two bytes `b0` then `b1` form `tok = (b0 << 8) | b1`, `offset` is bits 15 to 4 of it and `rawLen` bits 3 to 0.
Which of the two rows the token selects is R76's comparison with the write position. -/
def Obligations.ReferenceTokenLayout : Prop :=
  ∀ (w : DictIndex) (b0 b1 : Byte) (rest : List Byte), ∃ (offset : DictIndex) (rawLen : Nibble),
    decode .reference w (b0 :: b1 :: rest) =
        .ok (if offset = w then .endRef offset rawLen else .ref offset rawLen, rest) ∧
      offset.toNat = (b0.toNat * 256 + b1.toNat) / 16 ∧
      rawLen.toNat = (b0.toNat * 256 + b1.toNat) % 16

/-- R83: the bytes of `REF o, l` are the high and the low byte of `(o << 4) | (l - 2)`, with the rule's two examples. -/
def Obligations.ReferenceEncodingBytes : Prop :=
  (∀ (o l : Nat), o < 4096 → 2 ≤ l → l ≤ 17 →
    (Instr.ref (BitVec.ofNat 12 o) (BitVec.ofNat 4 (l - 2))).encode =
      [BitVec.ofNat 8 ((o <<< 4 ||| (l - 2)) >>> 8), BitVec.ofNat 8 ((o <<< 4 ||| (l - 2)) &&& 0xFF)]) ∧
  (Instr.ref (BitVec.ofNat 12 207) (BitVec.ofNat 4 (17 - 2))).encode = [0x0C#8, 0xFF#8] ∧
  (Instr.ref (BitVec.ofNat 12 1) (BitVec.ofNat 4 (5 - 2))).encode = [0x00#8, 0x13#8]

/-- 30_encoding.md sections 2 to 4 and 95_test_vectors.md sections 2.1 and 2.4: words written out from the spec decode
to what they stand for. -/
def Obligations.SpecWordsDecode : Prop :=
  decode .header 207#12 [0x2D#8, 0x00#8, 0x00#8, 0x00#8, 0x2B#8, 0x00#8, 0x00#8, 0x00#8, 0x4C#8, 0x5A#8, 0x46#8, 0x75#8,
      0xF1#8, 0xC5#8, 0xC7#8, 0xA7#8] = .ok (.hdrLzfu 0x2D#32 0x2B#32 0xA7C7C5F1#32, []) ∧
  decode .header 207#12 [0x11#8, 0x00#8, 0x00#8, 0x00#8, 0x05#8, 0x00#8, 0x00#8, 0x00#8, 0x4D#8, 0x45#8, 0x4C#8, 0x41#8,
      0x00#8, 0x00#8, 0x00#8, 0x00#8] = .ok (.hdrMela 0x11#32 5#32 0#32, []) ∧
  decode .raw 207#12 [0x48#8] = .ok (.raw 0x48#8, []) ∧
  decode .control 207#12 [0x03#8] = .ok (.ctrl 0x03#8, []) ∧
  decode .literal 207#12 [0x54#8] = .ok (.lit 0x54#8, []) ∧
  decode .reference 207#12 [0x12#8, 0x34#8] = .ok (.ref 291#12 4#4, []) ∧
  decode .reference 207#12 [0x0C#8, 0xFF#8] = .ok (.endRef 207#12 15#4, [])

/-! ### Reset -/

/-- R39: what reset sets, for every input and parameters; cells 0 to 206 hold SEED and the others are unwritten. The
values of the fields that the rule leaves unspecified (log 6) are not stated. -/
def Obligations.ResetValues : Prop :=
  ∀ (p : Params) (input : List Byte),
    let s := State.start p input
    s.phase = .header ∧ s.cur = 0 ∧ s.out = [] ∧ s.result = none ∧
    (∀ a, a < 207 → s.dict.read a = seed[a]?) ∧ (∀ i : DictIndex, s.written i = decide (i.toNat < 207)) ∧
    s.wrapped = false ∧ s.w = 207#12 ∧ s.copyRemaining = 0

/-- 10_state.md section 5, the seed table read as one number; the spec gives cells 21 to 206 from general knowledge, so
this rests on log 5. -/
def Obligations.SeedTableContents : Prop :=
  seed.length = 207 ∧
  seed.foldl (fun n b => n * 256 + b.toNat) 0 =
    0x7b5c727466315c616e73695c6d61635c64656666305c6465667461623732307b5c666f6e7474626c3b7d7b5c66305c666e696c205c66726f6d616e205c667377697373205c666d6f6465726e205c66736372697074205c666465636f72204d532053616e7320536572696653796d626f6c417269616c54696d6573204e657720526f6d616e436f75726965727b5c636f6c6f7274626c5c726564305c677265656e305c626c7565300d0a5c706172205c706172645c706c61696e5c66305c667332305c625c695c755c7461625c7478

/-! ### The six step rules -/

/-- 40_header_parser.md, the HEADER step, whole. `In[i]` is read as `input[cur + i]`; fields are little-endian
numbers. A short input raises `InvalidSize` with some value (a draw, log 2). That a header that fails leaves `cur` and
`hdr` as written before the error is the model's reading (log 11, DEDUCED). The `bound` under DeclaredSize is the spec's
own formula (92_eei_decisions.md D5, log 10), and the two orders of the checks are the spec's decision D8. -/
def Obligations.HeaderStepRule : Prop :=
  ∀ s : State, s.phase = .header →
    (s.input.length - s.cur < 16 →
      ∃ v n, step s = .next { s with phase := .done, result := some (.err (.invalidSize v)), draws := n }) ∧
    (16 ≤ s.input.length - s.cur →
      let b (i : Nat) : Byte := s.input.getD (s.cur + i) 0#8
      let size : Word32 := b 3 ++ b 2 ++ b 1 ++ b 0
      let rawSize : Word32 := b 7 ++ b 6 ++ b 5 ++ b 4
      let kindRaw : Word32 := b 11 ++ b 10 ++ b 9 ++ b 8
      let checksum : Word32 := b 15 ++ b 14 ++ b 13 ++ b 12
      let stored (k : Option Kind) : State :=
        { s with cur := s.cur + 16, hdr := ⟨size, rawSize, kindRaw, k, checksum⟩ }
      let failed (k : Option Kind) (e : RunError) : State :=
        { stored k with phase := .done, result := some (.err e) }
      step s = .next (
        if s.params.headerErrorOrder = .sizeFirst ∧ size.toNat < 0x0C then failed s.hdr.kind (.invalidSize size)
        else if kindRaw = 0x75465A4C#32 then
          if size.toNat < 0x10 then failed (some .compressed) (.invalidSize size)
          else { stored (some .compressed) with
            bound := if s.params.loopBound = .availableInput then s.input.length
              else min s.input.length (4 + size.toNat)
            phase := .ctrl }
        else if kindRaw = 0x414C454D#32 then
          if size.toNat < 0x0C then failed (some .uncompressed) (.invalidSize size)
          else { stored (some .uncompressed) with phase := .pass }
        else failed s.hdr.kind (.invalidCompType kindRaw)))

/-- R95, whole: the PASS step emits the byte at the cursor, or ends the run at `N`, whatever the loop bound. -/
def Obligations.PassStepRule : Prop :=
  ∀ s : State, s.phase = .pass →
    step s = .next (
      if s.cur < s.input.length then
        { s with out := s.out ++ [s.input.getD s.cur 0#8], cur := s.cur + 1 }
      else { s with phase := .done, result := some (.ok s.out), termReason := .passThroughDone })

/-- R102, whole: the CTRL step, for every state whose `bound` lies in the input (10_state.md R23, an invariant). -/
def Obligations.ControlStepRule : Prop :=
  ∀ s : State, s.phase = .ctrl → s.bound ≤ s.input.length →
    step s = .next (
      if s.cur + 1 ≤ s.bound then
        let c := s.input.getD s.cur 0#8
        { s with cur := s.cur + 1, ctrl := c, bitIndex := 0, phase := if c.getLsbD 0 then .ref else .lit }
      else { s with phase := .done, result := some (.ok s.out), termReason := .endOfInput })

/-- R104, whole: the LIT step, for every state whose `bound` lies in the input. The dictionary is told cell by cell. -/
def Obligations.LiteralStepRule : Prop :=
  ∀ s : State, s.phase = .lit → s.bound ≤ s.input.length →
    if s.cur + 1 ≤ s.bound then
      let v := s.input.getD s.cur 0#8
      ∃ d, step s = .next { s with
          cur := s.cur + 1
          out := s.out ++ [v]
          dict := d
          w := BitVec.ofNat 12 ((s.w.toNat + 1) % 4096)
          wrapped := s.wrapped || decide (s.w = 4095#12)
          bitIndex := s.bitIndex + 1
          phase := if s.bitIndex + 1 = 8 then .ctrl
            else if s.ctrl.getLsbD (s.bitIndex + 1) then .ref else .lit } ∧
        d.read s.w.toNat = some v ∧ ∀ a, a ≠ s.w.toNat → d.read a = s.dict.read a
    else step s = .next { s with phase := .done, result := some (.ok s.out), termReason := .endOfInput }

/-- 42_compressed_path.md section 4, the REF step, whole, for every state whose `bound` lies in the input. The strict
clause is the spec's own reading of the source (92_eei_decisions.md D6, log 10); that its error leaves `cur` and `tok` as
written before it is the model's reading (log 11, DEDUCED). -/
def Obligations.ReferenceStepRule : Prop :=
  ∀ s : State, s.phase = .ref → s.bound ≤ s.input.length →
    step s = .next (
      if s.cur + 2 ≤ s.bound then
        let tok : Token := s.input.getD s.cur 0#8 ++ s.input.getD (s.cur + 1) 0#8
        let offset : DictIndex := tok.extractLsb' 4 12
        let len := tok.toNat % 16 + 2
        let read : State := { s with cur := s.cur + 2, tok := tok }
        if offset = s.w then
          { read with phase := .done, result := some (.ok s.out), termReason := .sentinel }
        else if s.params.strictRefs = true ∧ s.wrapped = false ∧ s.w.toNat < offset.toNat then
          { read with phase := .done, result := some (.err .invalidDictionaryReference) }
        else { read with r := offset, copyRemaining := len, bitIndex := s.bitIndex + 1, phase := .copy }
      else { s with phase := .done, result := some (.ok s.out), termReason := .endOfInput })

/-- R110, whole: the COPY step. `DictRead(r)` is R12's: the cell's byte if the cell is written, else the `DICT_FILL`
byte, else some byte, of which nothing is said (log 2). A written cell has a value in every state a run reaches (an
invariant), which is the premise. -/
def Obligations.CopyStepRule : Prop :=
  ∀ s : State, s.phase = .copy → 1 ≤ s.copyRemaining →
    (s.wrapped = true ∨ s.r.toNat < s.w.toNat → (s.dict.read s.r.toNat).isSome = true) →
    ∃ v d n, step s = .next { s with
        out := s.out ++ [v]
        dict := d
        r := BitVec.ofNat 12 ((s.r.toNat + 1) % 4096)
        w := BitVec.ofNat 12 ((s.w.toNat + 1) % 4096)
        wrapped := s.wrapped || decide (s.w = 4095#12)
        copyRemaining := s.copyRemaining - 1
        phase := if s.copyRemaining - 1 = 0 then
            (if s.bitIndex = 8 then .ctrl else if s.ctrl.getLsbD s.bitIndex then .ref else .lit)
          else .copy
        draws := n } ∧
      (s.wrapped = true ∨ s.r.toNat < s.w.toNat → s.dict.read s.r.toNat = some v) ∧
      (¬ (s.wrapped = true ∨ s.r.toNat < s.w.toNat) → ∀ f, s.params.dictFill = some f → v = f) ∧
      d.read s.w.toNat = some v ∧ ∀ a, a ≠ s.w.toNat → d.read a = s.dict.read a

/-! ### Every instruction completes -/

/-- 40_header_parser.md, the HEADER step and its dispatch: HDR.LZFU in phase HEADER with a legal size enters
the compressed path. The `bound` under DeclaredSize is the spec's own formula (92_eei_decisions.md D5,
91_not_in_source.md N10, log 10). -/
def Obligations.HdrLzfuCompletes : Prop :=
  ∀ (size rawSize checksum : Word32) (s : State), s.phase = .header → 0x10#32 ≤ size →
    exec (.hdrLzfu size rawSize checksum) s = .next { s with
      cur := s.cur + 16
      hdr := ⟨size, rawSize, 0x75465A4C#32, some .compressed, checksum⟩
      bound := match s.params.loopBound with
        | .availableInput => s.input.length
        | .declaredSize => min s.input.length (4 + size.toNat)
      phase := .ctrl }

/-- 40_header_parser.md, the HEADER step and its dispatch: HDR.MELA in phase HEADER with a legal size enters the pass-through. -/
def Obligations.HdrMelaCompletes : Prop :=
  ∀ (size rawSize checksum : Word32) (s : State), s.phase = .header → 0x0C#32 ≤ size →
    exec (.hdrMela size rawSize checksum) s = .next { s with
      cur := s.cur + 16
      hdr := ⟨size, rawSize, 0x414C454D#32, some .uncompressed, checksum⟩
      phase := .pass }

/-- 41_uncompressed_path.md, the PASS step: RAW emits its byte. -/
def Obligations.RawCompletes : Prop :=
  ∀ (b : Byte) (s : State), s.phase = .pass →
    exec (.raw b) s = .next { s with out := s.out ++ [b], cur := s.cur + 1 }

/-- 42_compressed_path.md section 2: CTRL begins a group with the token that bit 0 announces. -/
def Obligations.CtrlCompletes : Prop :=
  ∀ (c : Byte) (s : State), s.phase = .ctrl →
    exec (.ctrl c) s = .next { s with
      cur := s.cur + 1, ctrl := c, bitIndex := 0, phase := if c.getLsbD 0 then .ref else .lit }

/-- 42_compressed_path.md section 3: LIT emits its byte, writes it at the write position and advances, wrapping to 0
after 4095. -/
def Obligations.LitCompletes : Prop :=
  ∀ (b : Byte) (s : State), s.phase = .lit →
    ∃ t, exec (.lit b) s = .next t ∧ t.out = s.out ++ [b] ∧ t.cur = s.cur + 1 ∧
      t.dict.read s.w.toNat = some b ∧
      t.w.toNat = (if s.w.toNat = 4095 then 0 else s.w.toNat + 1) ∧
      t.wrapped = (s.wrapped || decide (s.w.toNat = 4095)) ∧
      t.bitIndex = s.bitIndex + 1 ∧
      t.phase = (if s.bitIndex = 7 then .ctrl else if s.ctrl.getLsbD (s.bitIndex + 1) then .ref else .lit)

/-- 42_compressed_path.md section 4: REF with an offset that is not the write position and passes the strict check
starts a copy of `rawLen + 2` bytes. The strict check is the spec's own reading (92_eei_decisions.md D6). -/
def Obligations.RefCompletes : Prop :=
  ∀ (offset : DictIndex) (rawLen : Nibble) (s : State), s.phase = .ref → offset ≠ s.w →
    (s.params.strictRefs = false ∨ s.wrapped = true ∨ offset.toNat ≤ s.w.toNat) →
    exec (.ref offset rawLen) s = .next { s with
      cur := s.cur + 2
      tok := offset ++ rawLen
      r := offset
      copyRemaining := rawLen.toNat + 2
      bitIndex := s.bitIndex + 1
      phase := .copy }

/-- 42_compressed_path.md section 4: END ends the run with the output so far, whatever its length nibble and whatever
STRICT_REFS; it copies nothing and reads no further input. -/
def Obligations.EndCompletes : Prop :=
  ∀ (rawLen : Nibble) (s : State), s.phase = .ref →
    exec (.endRef s.w rawLen) s = .next { s with
      cur := s.cur + 2
      tok := s.w ++ rawLen
      phase := .done
      result := some (.ok s.out)
      termReason := .sentinel }

/-! ### Errors -/

/-- R89: a declared size below 0x0C, or below 0x10 for a Compressed header, raises `InvalidSize` with the declared
size. Nothing but the input's own declared size is compared. -/
def Obligations.SmallSizeRaises : Prop :=
  ∀ (size rawSize checksum : Word32) (s : State), s.phase = .header →
    (size.toNat < 0x10 → ∃ t, exec (.hdrLzfu size rawSize checksum) s = .next t ∧
      t.phase = .done ∧ t.result = some (.err (.invalidSize size)) ∧ t.out = s.out) ∧
    (size.toNat < 0x0C → ∃ t, exec (.hdrMela size rawSize checksum) s = .next t ∧
      t.phase = .done ∧ t.result = some (.err (.invalidSize size)) ∧ t.out = s.out) ∧
    (0x10 ≤ size.toNat → ∃ t, exec (.hdrLzfu size rawSize checksum) s = .next t ∧ t.result = s.result) ∧
    (0x0C ≤ size.toNat → ∃ t, exec (.hdrMela size rawSize checksum) s = .next t ∧ t.result = s.result)

/-- R86, R92: fewer than 16 bytes remaining raises `InvalidSize` before any other check, under both orders, whatever the
bytes are; nothing is read. The value carried is a draw: some value, of which nothing is said (log 2). -/
def Obligations.ShortInputRaises : Prop :=
  ∀ s : State, s.phase = .header → s.input.length - s.cur < 16 →
    ∃ t v, step s = .next t ∧ t.phase = .done ∧ t.result = some (.err (.invalidSize v)) ∧
      t.cur = s.cur ∧ t.hdr = s.hdr

/-- 40_header_parser.md, check order: a header of an illegal kind raises `InvalidCompType` with the kind field as read,
except that SizeFirst raises `InvalidSize` for a declared size below 0x0C. The order is the spec's decision D8. -/
def Obligations.IllegalKindRaises : Prop :=
  ∀ (s : State) (h : RawHeader) (rest : List Byte), s.phase = .header →
    readHeader (s.input.drop s.cur) = some (h, rest) →
    h.kindRaw ≠ 0x75465A4C#32 → h.kindRaw ≠ 0x414C454D#32 →
    ∃ t, step s = .next t ∧ t.phase = .done ∧ t.out = s.out ∧
      t.result = some (.err (
        if s.params.headerErrorOrder = .sizeFirst ∧ h.compressedSize.toNat < 0x0C
        then .invalidSize h.compressedSize else .invalidCompType h.kindRaw))

/-- 42_compressed_path.md section 4, the strict check, which is the spec's own reading (92_eei_decisions.md D6): under
STRICT_REFS, before the first wrap, an offset above the write position raises the error before its copy starts. That
`cur` and `tok` are as written before the error is the model's reading (log 11, DEDUCED). -/
def Obligations.StrictReferenceRaises : Prop :=
  ∀ (offset : DictIndex) (rawLen : Nibble) (s : State), s.phase = .ref → s.params.strictRefs = true →
    s.wrapped = false → s.w.toNat < offset.toNat →
    exec (.ref offset rawLen) s = .next { s with
      cur := s.cur + 2
      tok := offset ++ rawLen
      phase := .done
      result := some (.err .invalidDictionaryReference) }

/-- 60_exceptions.md section 1: `InvalidDictionaryReference` comes only from a REF step under STRICT_REFS, and the bytes already emitted are
not delivered. -/
def Obligations.StrictErrorOnlyUnderStrictRefs : Prop :=
  ∀ s t : State, step s = .next t → s.result ≠ some (.err .invalidDictionaryReference) →
    t.result = some (.err .invalidDictionaryReference) →
    s.params.strictRefs = true ∧ s.phase = .ref ∧ t.phase = .done ∧ t.out = s.out

/-- 60_exceptions.md section 1: no step raises `Corrupted`. -/
def Obligations.CorruptedNeverRaised : Prop :=
  ∀ s t : State, step s = .next t → t.result = some (.err .corrupted) → s.result = some (.err .corrupted)

/-- 60_exceptions.md section 2, error entry: errors arise only in HEADER and REF, end the run in one step, and leave the
output, the dictionary and its registers as they were. That the HEADER step still stores the fields it has read is the
model's reading (log 11), and nothing is said of them here. -/
def Obligations.ErrorsArePrecise : Prop :=
  ∀ (s t : State) (e : RunError), step s = .next t → s.result = none → t.result = some (.err e) →
    (s.phase = .header ∨ s.phase = .ref) ∧ t.phase = .done ∧ t.out = s.out ∧ t.dict = s.dict ∧ t.w = s.w ∧
      t.wrapped = s.wrapped ∧ t.r = s.r ∧ t.copyRemaining = s.copyRemaining ∧ t.termReason = s.termReason

/-! ### Termination -/

/-- R112: soft termination happens at exactly three points, changes nothing but phase, result and reason, and delivers
what was emitted. -/
def Obligations.SoftTermination : Prop :=
  (∀ s : State,
    (s.phase = .ctrl ∧ s.bound < s.cur + 1) ∨ (s.phase = .lit ∧ s.bound < s.cur + 1) ∨
      (s.phase = .ref ∧ s.bound < s.cur + 2) →
    step s = .next { s with phase := .done, result := some (.ok s.out), termReason := .endOfInput }) ∧
  (∀ (s t : State) (bytes : List Byte), step s = .next t → s.result = none →
    t.result = some (.ok bytes) → t.termReason = .endOfInput →
    (s.phase = .ctrl ∧ s.bound < s.cur + 1) ∨ (s.phase = .lit ∧ s.bound < s.cur + 1) ∨
      (s.phase = .ref ∧ s.bound < s.cur + 2))

/-- R114: on the compressed path a run ends only by the sentinel, by soft termination, or by the strict error under
STRICT_REFS; the output's length and the write position's wrap end nothing. -/
def Obligations.CompressedEndsOnlyThreeWays : Prop :=
  ∀ s t : State, s.phase.inCompressedPath = true → step s = .next t → t.phase = .done →
    (s.phase = .ref ∧ t.result = some (.ok s.out) ∧ t.termReason = .sentinel ∧ tokenOffset t.tok = s.w) ∨
    (t.result = some (.ok s.out) ∧ t.termReason = .endOfInput ∧
      s.bound < s.cur + (if s.phase = .ref then 2 else 1)) ∨
    (s.phase = .ref ∧ s.params.strictRefs = true ∧ t.result = some (.err .invalidDictionaryReference))

/-- 60_exceptions.md section 2: after DONE nothing runs. That `step` and every meaning then stop by name is the model's
form of it (log 7, log 8). -/
def Obligations.AfterDoneNothingRuns : Prop :=
  ∀ s : State, s.phase = .done → step s = .fault .runEnded ∧ ∀ i : Instr, exec i s = .fault .notEnabled

/-- 10_state.md section 3: an instruction runs in the one phase that enables its step rule; outside it the meaning stops
by name, which is the model's form of it (log 8). -/
def Obligations.InstructionsRunInTheirPhaseOnly : Prop :=
  ∀ (i : Instr) (s : State), (s.phase = i.phase → ∃ t, exec i s = .next t) ∧
    (s.phase ≠ i.phase → exec i s = .fault .notEnabled)

/-! ### The step -/

/-- 10_state.md section 3 and 30_encoding.md section 1: when the unit at the cursor is available and decodes to `i`, the
step is `i`'s. The machine adds nothing around it: the instruction itself advances the cursor. -/
def Obligations.StepRunsDecodedInstruction : Prop :=
  ∀ (s : State) (i : Instr) (rest : List Byte),
    (s.phase = .header → s.cur + 16 ≤ s.input.length →
      decode .header s.w (s.input.drop s.cur) = .ok (i, rest) → step s = exec i s) ∧
    (s.phase = .pass → s.cur < s.input.length →
      decode .raw s.w (s.input.drop s.cur) = .ok (i, rest) → step s = exec i s) ∧
    (s.phase = .ctrl → s.cur + 1 ≤ s.bound →
      decode .control s.w (s.input.drop s.cur) = .ok (i, rest) → step s = exec i s) ∧
    (s.phase = .lit → s.cur + 1 ≤ s.bound →
      decode .literal s.w (s.input.drop s.cur) = .ok (i, rest) → step s = exec i s) ∧
    (s.phase = .ref → s.cur + 2 ≤ s.bound →
      decode .reference s.w (s.input.drop s.cur) = .ok (i, rest) → step s = exec i s)

/-- 42_compressed_path.md section 6 (no state other than DONE lacks an enabled step), from every state that meets the
invariant. -/
def Obligations.StepEnabledUntilDone : Prop :=
  ∀ s : State, s.Inv → s.phase ≠ .done → ∃ t, step s = .next t

/-- The invariant of the machine holds at the start of every invocation (10_state.md section 9). Its clauses on `bound`,
`bitIndex` and `hdr.kind` there rest on the model's reset values (log 6). -/
def Obligations.StartMeetsInvariant : Prop :=
  ∀ (p : Params) (input : List Byte), (State.start p input).Inv

/-- Every step keeps the invariant: the canonical dictionary, `Written` as the cells that have a value, the cursor and
`bound` in the input, the token bits, `r` apart from `w` in a copy, `result` present exactly at DONE. -/
def Obligations.StepKeepsInvariant : Prop :=
  ∀ s t : State, s.Inv → step s = .next t → t.Inv

/-! ### Frames -/

/-- 40_header_parser.md: what HDR.LZFU and HDR.MELA leave alone. They may write `cur`, `hdr`, `bound`, `phase` and
`result`; neither stores a byte. -/
def Obligations.HeaderInstructionsFrame : Prop :=
  ∀ (i : Instr) (s t : State), i.format = .header → exec i s = .next t →
    t.params = s.params ∧ t.input = s.input ∧ (∀ a, t.dict.read a = s.dict.read a) ∧ t.dict = s.dict ∧
      t.wrapped = s.wrapped ∧ t.w = s.w ∧ t.r = s.r ∧ t.ctrl = s.ctrl ∧ t.tok = s.tok ∧
      t.copyRemaining = s.copyRemaining ∧ t.bitIndex = s.bitIndex ∧ t.out = s.out ∧
      t.termReason = s.termReason ∧ t.draws = s.draws

/-- 41_uncompressed_path.md and 42_compressed_path.md section 2: what RAW and CTRL leave alone. RAW writes `out` and
`cur`; CTRL writes `ctrl`, `bitIndex`, `phase` and `cur`; neither stores a byte. -/
def Obligations.RawAndCtrlFrame : Prop :=
  ∀ (i : Instr) (s t : State), (i.format = .raw ∨ i.format = .control) → exec i s = .next t →
    t.params = s.params ∧ t.input = s.input ∧ t.bound = s.bound ∧ t.hdr = s.hdr ∧
      (∀ a, t.dict.read a = s.dict.read a) ∧ t.dict = s.dict ∧ t.wrapped = s.wrapped ∧ t.w = s.w ∧ t.r = s.r ∧
      t.tok = s.tok ∧ t.copyRemaining = s.copyRemaining ∧ t.result = s.result ∧ t.termReason = s.termReason ∧
      t.draws = s.draws ∧
      (i.format = .raw → t.ctrl = s.ctrl ∧ t.bitIndex = s.bitIndex ∧ t.phase = s.phase) ∧
      (i.format = .control → t.out = s.out)

/-- 42_compressed_path.md section 3: what LIT leaves alone: every cell but the one at `w` before it, and every register
but `cur`, `out`, `w`, `wrapped`, `bitIndex` and `phase`. -/
def Obligations.LitFrame : Prop :=
  ∀ (b : Byte) (s t : State), exec (.lit b) s = .next t →
    t.params = s.params ∧ t.input = s.input ∧ t.bound = s.bound ∧ t.hdr = s.hdr ∧
      (∀ a, a ≠ s.w.toNat → t.dict.read a = s.dict.read a) ∧ t.r = s.r ∧ t.ctrl = s.ctrl ∧ t.tok = s.tok ∧
      t.copyRemaining = s.copyRemaining ∧ t.result = s.result ∧ t.termReason = s.termReason ∧ t.draws = s.draws

/-- 42_compressed_path.md section 4: what REF and END leave alone. They may write `cur`, `tok`, `r`, `copyRemaining`,
`bitIndex`, `phase`, `result` and `termReason`; neither stores a byte (the COPY steps do). -/
def Obligations.ReferenceInstructionsFrame : Prop :=
  ∀ (i : Instr) (s t : State), i.format = .reference → exec i s = .next t →
    t.params = s.params ∧ t.input = s.input ∧ t.bound = s.bound ∧ t.hdr = s.hdr ∧
      (∀ a, t.dict.read a = s.dict.read a) ∧ t.dict = s.dict ∧ t.wrapped = s.wrapped ∧ t.w = s.w ∧
      t.ctrl = s.ctrl ∧ t.out = s.out ∧ t.draws = s.draws ∧
      (t.phase = .done → t.r = s.r ∧ t.copyRemaining = s.copyRemaining ∧ t.bitIndex = s.bitIndex) ∧
      (t.phase = .copy → t.result = s.result ∧ t.termReason = s.termReason)

/-! ### Rules of the whole machine -/

/-- R17: no step writes the input or a parameter. The seed is a constant of the model, so nothing can write it. -/
def Obligations.RunParametersNeverWritten : Prop :=
  ∀ s t : State, step s = .next t → t.params = s.params ∧ t.input = s.input

/-- R22: a step advances the cursor by 16 for a header, by 1 for a control byte, a literal or a pass-through byte, by 2
for a token, and otherwise leaves it; it never decreases, and stays in 0..N in every state that meets the invariant. It starts at 0. -/
def Obligations.CursorAdvances : Prop :=
  (∀ (p : Params) (input : List Byte), (State.start p input).cur = 0) ∧
  ∀ s t : State, step s = .next t →
    (t.cur = s.cur ∨
      t.cur = s.cur + (match s.phase with
        | .header => 16 | .pass => 1 | .ctrl => 1 | .lit => 1 | .ref => 2 | .copy => 0 | .done => 0)) ∧
    (t.phase ≠ .done → s.phase ≠ .copy → s.cur < t.cur) ∧
    (s.Inv → t.cur ≤ t.input.length)

/-- 10_state.md section 7: output starts empty and is append only, at most one byte a step, from PASS, LIT and COPY steps only. -/
def Obligations.OutputIsAppendOnly : Prop :=
  (∀ (p : Params) (input : List Byte), (State.start p input).out = []) ∧
  ∀ s t : State, step s = .next t →
    t.out = s.out ∨ ((s.phase = .pass ∨ s.phase = .lit ∨ s.phase = .copy) ∧ ∃ b, t.out = s.out ++ [b])

/-- R28, and 70_reset_and_hazards.md section 3 (the write-offset hazard): the write position advances, modulo 4096, with
every byte written to the dictionary, literal or copied, and with nothing else; that byte goes to the cell at the write
position and to the output, and every other cell is left alone. -/
def Obligations.WritePositionFollowsWrites : Prop :=
  (∀ (p : Params) (input : List Byte), (State.start p input).w = 207#12) ∧
  ∀ s t : State, step s = .next t →
    (t.w = s.w ∧ t.wrapped = s.wrapped ∧ t.dict = s.dict) ∨
    ((s.phase = .lit ∨ s.phase = .copy) ∧ t.w.toNat = (s.w.toNat + 1) % 4096 ∧
      t.wrapped = (s.wrapped || decide (s.w.toNat = 4095)) ∧
      ∃ v, t.out = s.out ++ [v] ∧ t.dict.read s.w.toNat = some v ∧
        ∀ a, a ≠ s.w.toNat → t.dict.read a = s.dict.read a)

/-- 70_reset_and_hazards.md section 1: draws happen at only two places, the short input and a read of a never-written
cell under DICT_FILL = none. That a draw advances a counter is the model's form of it (log 2). -/
def Obligations.DrawsHappenAtTwoPlaces : Prop :=
  ∀ s t : State, step s = .next t →
    t.draws = s.draws ∨
    (t.draws = s.draws + 1 ∧
      ((s.phase = .header ∧ s.input.length - s.cur < 16) ∨
        (s.phase = .copy ∧ s.params.dictFill = none ∧ s.cellValue s.r = none)))

/-! ### Runs -/

/-- R96: a run on an Uncompressed header of legal size ends with exactly the payload, and the dictionary is never
touched. -/
def Obligations.PassThroughDeliversPayload : Prop :=
  ∀ (p : Params) (input : List Byte) (h : RawHeader) (rest : List Byte),
    readHeader input = some (h, rest) → h.kindRaw = 0x414C454D#32 → 0x0C#32 ≤ h.compressedSize →
    ∃ t, runFrom p input (1 + (input.length - 16) + 1) = .next t ∧ t.phase = .done ∧
      t.result = some (.ok (input.drop 16)) ∧ (input.drop 16).length = input.length - 16 ∧
      t.termReason = .passThroughDone ∧ ∀ a, t.dict.read a = (State.start p input).dict.read a

/-- 42_compressed_path.md section 5, overlap and wraparound: the copy a REF starts emits, as byte `k`, the byte `k mod d`
of those that stood from `offset` on before the copy, where `d` is how far `offset` is behind the write position
modulo 4096; it writes those bytes from the write position on and touches no other cell. The premise gives the first
`d` of the bytes read (all of them, if the copy is shorter than `d`). -/
def Obligations.CopyRepeatsPeriodically : Prop :=
  ∀ (offset : DictIndex) (rawLen : Nibble) (s t0 : State) (v : Nat → Byte), s.phase = .ref → offset ≠ s.w →
    exec (.ref offset rawLen) s = .next t0 → t0.phase = .copy →
    let len := rawLen.toNat + 2
    let d := (s.w - offset).toNat
    (∀ k, k < len → k < d → s.cellValue (offset + BitVec.ofNat 12 k) = some (v k)) →
    ∃ t, Host.Core.run core len t0 = .next t ∧
      t.out = s.out ++ (List.range len).map (fun k => v (k % d)) ∧
      t.w = s.w + BitVec.ofNat 12 len ∧ t.r = offset + BitVec.ofNat 12 len ∧ t.copyRemaining = 0 ∧
      t.phase = nextTokenPhase s.ctrl (s.bitIndex + 1) ∧
      (∀ k, k < len → t.dict.read (s.w + BitVec.ofNat 12 k).toNat = some (v (k % d))) ∧
      (∀ i : DictIndex, (∀ k, k < len → i ≠ s.w + BitVec.ofNat 12 k) → t.dict.read i.toNat = s.dict.read i.toNat)

/-- R77: from one CTRL step to the next, with no other between, the cursor advances by `1 + 8 + popcount(c)`, which is in
9..17; a group that a sentinel ends at token `k` takes `1 + sum over i <= k of (1 + c[i])` bytes. -/
def Obligations.GroupTakesItsBytes : Prop :=
  (∀ (s t : State) (k : Nat), s.phase = .ctrl → 0 < k → Host.Core.run core k s = .next t →
    (∀ (j : Nat) (u : State), 0 < j → j < k → Host.Core.run core j s = .next u → u.phase ≠ .ctrl) →
    (t.phase = .ctrl →
      t.cur = s.cur + (1 + 8 + ((List.range 8).filter (fun i => t.ctrl.getLsbD i)).length)) ∧
    (∀ bytes, t.phase = .done → t.result = some (.ok bytes) → t.termReason = .sentinel →
      t.cur = s.cur + (1 + ((List.range (t.bitIndex + 1)).map (fun i => 1 + (t.ctrl.getLsbD i).toNat)).sum))) ∧
  (∀ c : Byte, 9 ≤ groupBytes c ∧ groupBytes c ≤ 17)

/-- 42_compressed_path.md section 6, the step bound: every run reaches DONE. A failing header takes one step, an
Uncompressed run at most `1 + (N - 16) + 1`, a Compressed run at most `1 + 9 * (bound - 16) + 1`. -/
def Obligations.EveryRunEndsWithinBound : Prop :=
  ∀ (p : Params) (input : List Byte), ∃ k t, runFrom p input k = .next t ∧ t.phase = .done ∧
    (∀ e, t.result = some (.err e) → e ≠ .invalidDictionaryReference → k = 1) ∧
    (t.hdr.kind = some .uncompressed → k ≤ 1 + (input.length - 16) + 1) ∧
    (t.hdr.kind = some .compressed → k ≤ 1 + 9 * (t.bound - 16) + 1)

/-- 20_memory.md section 6: the output's length is `N - 16` at the end of a pass-through, and on the compressed path at
most `8 * (bound - 16)` all along. -/
def Obligations.OutputLengthBounds : Prop :=
  ∀ (p : Params) (input : List Byte) (k : Nat) (t : State), runFrom p input k = .next t →
    (t.hdr.kind = some .compressed → t.out.length ≤ 8 * (t.bound - 16)) ∧
    (t.hdr.kind = some .uncompressed → t.phase = .done → t.result = some (.ok t.out) →
      t.out.length = input.length - 16)

/-- 40_header_parser.md, the advisory fields: `rawSize` and `checksum` are read and stored, and decide nothing: two
inputs that differ only in those bytes (4 to 7 and 12 to 15) give the same result, output and phase after any number of
steps, or stop alike. The two runs draw the same values, which is the model's choice (log 21). That the fields are stored
by a header that fails too is the model's reading (log 11, DEDUCED). -/
def Obligations.AdvisoryFieldsDecideNothing : Prop :=
  (∀ (p : Params) (in1 in2 : List Byte), in1.length = in2.length →
    (∀ i, i < 4 ∨ (8 ≤ i ∧ i < 12) ∨ 16 ≤ i → in1[i]? = in2[i]?) →
    ∀ k, (nextState (runFrom p in1 k)).map (fun t => (t.result, t.termReason, t.out, t.phase)) =
      (nextState (runFrom p in2 k)).map (fun t => (t.result, t.termReason, t.out, t.phase))) ∧
  (∀ (p : Params) (input : List Byte) (h : RawHeader) (rest : List Byte), readHeader input = some (h, rest) →
    ∃ t, runFrom p input 1 = .next t ∧ t.hdr.rawSize = h.rawSize ∧ t.hdr.checksum = h.checksum)

/-- 42_compressed_path.md section 6, functional form: a run to its end computes `decompress`, under every parameter
value and for every input. Both take the same draws (log 2, log 21). The branches under DeclaredSize, STRICT_REFS and
SizeFirst are the spec's own (92_eei_decisions.md D5, D6, D8, log 10). -/
def Obligations.RunComputesFunctionalForm : Prop :=
  ∀ (p : Params) (input : List Byte), ∃ k t, runFrom p input k = .next t ∧ t.phase = .done ∧
    t.result = some (decompress p input)
end

