-- ==== Sys2Proof/Laws/Decode.lean ====
section
/-!
SUPPORT. The byte orders and the token fields undo one another; a header's bytes are read back as its fields.
-/

namespace Sys2Proof

/-- Joining the two parts a vector is cut into gives it back. -/
theorem append_extractLsb' {m n : Nat} (v : BitVec (m + n)) : v.extractLsb' n m ++ v.extractLsb' 0 n = v := by
  apply BitVec.eq_of_getLsbD_eq
  intro i hi
  simp only [BitVec.getLsbD_append, BitVec.getLsbD_extractLsb']
  by_cases h : i < n
  · simp [h]
  · simp only [h, decide_false]
    have h1 : i - n < m := by omega
    have h2 : n + (i - n) = i := by omega
    simp [h1, h2]

/-- The upper part of a joined vector. -/
theorem extractLsb'_append_upper {m n : Nat} (a : BitVec m) (b : BitVec n) : (a ++ b).extractLsb' n m = a := by
  apply BitVec.eq_of_getLsbD_eq
  intro i hi
  simp [BitVec.getLsbD_append, hi]

/-- The lower part of a joined vector. -/
theorem extractLsb'_append_lower {m n : Nat} (a : BitVec m) (b : BitVec n) : (a ++ b).extractLsb' 0 n = b := by
  apply BitVec.eq_of_getLsbD_eq
  intro i hi
  simp [BitVec.getLsbD_append, hi]

/-- A token is its two fields joined (30_encoding.md R75). -/
@[simp] theorem mkToken_fields (t : Token) : mkToken (tokenOffset t) (tokenRawLen t) = t :=
  append_extractLsb' (m := 12) (n := 4) t

@[simp] theorem tokenOffset_mkToken (o : DictIndex) (l : Nibble) : tokenOffset (mkToken o l) = o :=
  extractLsb'_append_upper o l

@[simp] theorem tokenRawLen_mkToken (o : DictIndex) (l : Nibble) : tokenRawLen (mkToken o l) = l :=
  extractLsb'_append_lower o l

/-- The two bytes of a token give it back (20_memory.md R48). -/
theorem be16_bytes (t : Token) : be16 (t.extractLsb' 8 8) (t.extractLsb' 0 8) = t :=
  append_extractLsb' (m := 8) (n := 8) t

/-- The bytes of a u32 give it back (20_memory.md R47). -/
theorem le32_bytes (v : Word32) : le32 (word32Byte v 0) (word32Byte v 1) (word32Byte v 2) (word32Byte v 3) = v := by
  apply BitVec.eq_of_getLsbD_eq
  intro i hi
  simp only [le32, word32Byte, BitVec.getLsbD_append, BitVec.getLsbD_extractLsb']
  by_cases h0 : i < 8
  · simp [h0]
  · by_cases h1 : i < 16
    · have a : i - 8 < 8 := by omega
      have b : 8 + (i - 8) = i := by omega
      simp [h0, a, b]
    · by_cases h2 : i < 24
      · have a : ¬ i - 8 < 8 := by omega
        have b : i - 8 - 8 < 8 := by omega
        have c : 16 + (i - 8 - 8) = i := by omega
        simp [h0, a, b, c]
      · have a : ¬ i - 8 < 8 := by omega
        have b : ¬ i - 8 - 8 < 8 := by omega
        have c : i - 8 - 8 - 8 < 8 := by omega
        have d : 24 + (i - 8 - 8 - 8) = i := by omega
        simp [h0, a, b, c, d]

/-- The bytes of four bytes' u32 are those bytes (20_memory.md R47). -/
theorem le32Bytes_le32 (b0 b1 b2 b3 : Byte) : le32Bytes (le32 b0 b1 b2 b3) = [b0, b1, b2, b3] := by
  simp only [le32Bytes, word32Byte, le32]
  refine List.cons_eq_cons.2 ⟨?_, List.cons_eq_cons.2 ⟨?_, List.cons_eq_cons.2 ⟨?_, List.cons_eq_cons.2 ⟨?_, rfl⟩⟩⟩⟩
  all_goals
    apply BitVec.eq_of_getLsbD_eq
    intro i hi
    simp only [BitVec.getLsbD_append, BitVec.getLsbD_extractLsb', hi]
  · simp [hi]
  · have a : ¬ 8 * 1 + i < 8 := by omega
    have b : 8 * 1 + i - 8 < 8 := by omega
    have c : 8 * 1 + i - 8 = i := by omega
    simp [hi]
  · have a : ¬ 16 + i < 8 := by omega
    have b : ¬ 16 + i - 8 < 8 := by omega
    have c : 16 + i - 8 - 8 = i := by omega
    simp [a, b, c, hi]
  · have a : ¬ 24 + i < 8 := by omega
    have b : ¬ 24 + i - 8 < 8 := by omega
    have c : ¬ 24 + i - 8 - 8 < 8 := by omega
    have d : 24 + i - 8 - 8 - 8 = i := by omega
    simp [a, b, c, d]

/-- A header's bytes are read back as its fields (40_header_parser.md R87). -/
theorem readHeader_encodeHeader (h : RawHeader) (rest : List Byte) :
    readHeader (encodeHeader h ++ rest) = some (h, rest) := by
  show some (RawHeader.mk _ _ _ _, rest) = _
  rw [le32_bytes, le32_bytes, le32_bytes, le32_bytes]

end Sys2Proof
end

