-- ==== Sys2Proof/Laws/Memory.lean ====
section
/-!
SUPPORT. The dictionary's contents: a read after a write to the same cell gives the value written, a write leaves
every other cell alone, and every write keeps the canonical form.
-/

namespace Sys2Proof.Machine

@[simp] theorem Memory.read_nil (a : Nat) : Memory.read [] a = Memory.initial a := by rw [Memory.read]

theorem seed_length : seed.length = 207 := by
  unfold seed
  simp only [List.length_append, List.length_cons, List.length_nil]

theorem Memory.initial_isSome (a : Nat) : (Memory.initial a).isSome = decide (a < 207) := by
  unfold Memory.initial
  by_cases h : a < 207
  · simp [List.getElem?_eq_getElem (l := seed) (i := a) (by rw [seed_length]; exact h), h]
  · simp [List.getElem?_eq_none (l := seed) (i := a) (by rw [seed_length]; omega), h]

theorem Memory.wf_nil : Memory.wf [] := ⟨List.Pairwise.nil, by simp⟩

theorem Memory.read_insert_same (m : Memory) (a : Nat) (v : Byte) : (m.insert a v).read a = some v := by
  induction m with
  | nil => simp [Memory.insert, Memory.read]
  | cons c rest ih =>
    obtain ⟨k, b⟩ := c
    unfold Memory.insert
    split
    · simp [Memory.read]
    · split
      · simp [Memory.read]
      · rename_i h; simp [Memory.read, Ne.symm h, ih]

theorem Memory.read_insert_other (m : Memory) {a a' : Nat} (v : Byte) (h : a' ≠ a) :
    (m.insert a v).read a' = m.read a' := by
  induction m with
  | nil => simp [Memory.insert, Memory.read, Ne.symm h]
  | cons c rest ih =>
    obtain ⟨k, b⟩ := c
    unfold Memory.insert
    split
    · simp [Memory.read, Ne.symm h]
    · split
      · rename_i hk; subst hk; simp [Memory.read, Ne.symm h]
      · simp [Memory.read, ih]

theorem Memory.read_erase_same (m : Memory) (a : Nat) : (m.erase a).read a = Memory.initial a := by
  induction m with
  | nil => rfl
  | cons c rest ih =>
    obtain ⟨k, b⟩ := c
    by_cases hk : k = a
    · simpa [Memory.erase, hk] using ih
    · simpa [Memory.erase, Memory.read, hk] using ih

theorem Memory.read_erase_other (m : Memory) {a a' : Nat} (h : a' ≠ a) : (m.erase a).read a' = m.read a' := by
  induction m with
  | nil => rfl
  | cons c rest ih =>
    obtain ⟨k, b⟩ := c
    by_cases hk : k = a
    · subst hk; simpa [Memory.erase, Memory.read, Ne.symm h] using ih
    · have ih' : Memory.read (List.filter (fun c => !decide (c.1 = a)) rest) a' = Memory.read rest a' := by
        simpa [Memory.erase] using ih
      simp [Memory.erase, Memory.read, hk, ih']

/-- A read after a write to the same cell gives the value written (20_memory.md R57). -/
@[simp] theorem Memory.read_write_same (m : Memory) (a : Nat) (v : Byte) : (m.write a v).read a = some v := by
  unfold Memory.write
  split
  · rename_i h; rw [Memory.read_erase_same, h]
  · exact Memory.read_insert_same m a v

/-- A write leaves every other cell alone (20_memory.md R57). -/
theorem Memory.read_write_other (m : Memory) {a a' : Nat} (v : Byte) (h : a' ≠ a) :
    (m.write a v).read a' = m.read a' := by
  unfold Memory.write
  split
  · exact Memory.read_erase_other m h
  · exact Memory.read_insert_other m v h

theorem Memory.mem_insert {m : Memory} {a : Nat} {v : Byte} {c : Host.Cell} (h : c ∈ m.insert a v) :
    c = (a, v) ∨ c ∈ m := by
  induction m with
  | nil => simpa [Memory.insert] using h
  | cons d rest ih =>
    obtain ⟨k, b⟩ := d
    unfold Memory.insert at h
    split at h
    · simpa using h
    · split at h
      · rcases List.mem_cons.1 h with h | h
        · exact .inl h
        · exact .inr (List.mem_cons_of_mem _ h)
      · rcases List.mem_cons.1 h with h | h
        · exact .inr (h ▸ List.mem_cons_self)
        · exact (ih h).imp_right (List.mem_cons_of_mem _)

theorem Memory.insert_sorted {m : Memory} (a : Nat) (v : Byte)
    (hm : m.Pairwise (fun c d => c.1 < d.1)) : (m.insert a v).Pairwise (fun c d => c.1 < d.1) := by
  induction m with
  | nil => simp [Memory.insert]
  | cons d rest ih =>
    obtain ⟨k, b⟩ := d
    obtain ⟨hk, hrest⟩ := List.pairwise_cons.1 hm
    unfold Memory.insert
    split
    · rename_i hlt
      refine List.pairwise_cons.2 ⟨fun c hc => ?_, hm⟩
      rcases List.mem_cons.1 hc with rfl | hc
      · exact hlt
      · exact Nat.lt_trans hlt (hk c hc)
    · split
      · rename_i heq
        exact List.pairwise_cons.2 ⟨fun c hc => by simpa [heq] using hk c hc, hrest⟩
      · rename_i hge hne
        refine List.pairwise_cons.2 ⟨fun c hc => ?_, ih hrest⟩
        rcases Memory.mem_insert hc with rfl | hc
        · show k < a
          omega
        · exact hk c hc

/-- Every write keeps the canonical form (log 4). -/
theorem Memory.write_wf {m : Memory} {a : Nat} (v : Byte) (ha : a < 4096) (hm : m.wf) : (m.write a v).wf := by
  unfold Memory.write
  split
  · exact ⟨hm.1.filter _, fun c hc => hm.2 c (List.mem_filter.1 hc).1⟩
  · rename_i hv
    refine ⟨Memory.insert_sorted a v hm.1, fun c hc => ?_⟩
    rcases Memory.mem_insert hc with rfl | hc
    · exact ⟨ha, hv⟩
    · exact hm.2 c hc

/-- Below every listed address, a cell holds what an unlisted one does. -/
theorem Memory.read_of_forall_lt {m : Memory} {a : Nat} (h : ∀ c ∈ m, a < c.1) : m.read a = Memory.initial a := by
  induction m with
  | nil => rfl
  | cons c rest ih =>
    obtain ⟨k, b⟩ := c
    have hk : a < k := h (k, b) List.mem_cons_self
    simp [Memory.read, Nat.ne_of_gt hk, ih fun d hd => h d (List.mem_cons_of_mem _ hd)]

end Sys2Proof.Machine
end

