-- ==== Sys2Proof/Laws/State.lean ====
section
/-!
SUPPORT. For each update of the state, what it leaves in each field, so that no proof unfolds a record update.
-/

namespace Sys2Proof.Machine

variable (s : State)

/-! ### emit -/

@[simp] theorem State.emit_params (b : Byte) : (s.emit b).params = s.params := rfl
@[simp] theorem State.emit_input (b : Byte) : (s.emit b).input = s.input := rfl
@[simp] theorem State.emit_phase (b : Byte) : (s.emit b).phase = s.phase := rfl
@[simp] theorem State.emit_cur (b : Byte) : (s.emit b).cur = s.cur := rfl
@[simp] theorem State.emit_bound (b : Byte) : (s.emit b).bound = s.bound := rfl
@[simp] theorem State.emit_hdr (b : Byte) : (s.emit b).hdr = s.hdr := rfl
@[simp] theorem State.emit_dict (b : Byte) : (s.emit b).dict = s.dict := rfl
@[simp] theorem State.emit_wrapped (b : Byte) : (s.emit b).wrapped = s.wrapped := rfl
@[simp] theorem State.emit_w (b : Byte) : (s.emit b).w = s.w := rfl
@[simp] theorem State.emit_r (b : Byte) : (s.emit b).r = s.r := rfl
@[simp] theorem State.emit_ctrl (b : Byte) : (s.emit b).ctrl = s.ctrl := rfl
@[simp] theorem State.emit_tok (b : Byte) : (s.emit b).tok = s.tok := rfl
@[simp] theorem State.emit_copyRemaining (b : Byte) : (s.emit b).copyRemaining = s.copyRemaining := rfl
@[simp] theorem State.emit_bitIndex (b : Byte) : (s.emit b).bitIndex = s.bitIndex := rfl
@[simp] theorem State.emit_out (b : Byte) : (s.emit b).out = s.out ++ [b] := rfl
@[simp] theorem State.emit_result (b : Byte) : (s.emit b).result = s.result := rfl
@[simp] theorem State.emit_termReason (b : Byte) : (s.emit b).termReason = s.termReason := rfl
@[simp] theorem State.emit_draws (b : Byte) : (s.emit b).draws = s.draws := rfl

/-! ### dictWrite -/

@[simp] theorem State.dictWrite_params (i : DictIndex) (v : Byte) : (s.dictWrite i v).params = s.params := rfl
@[simp] theorem State.dictWrite_input (i : DictIndex) (v : Byte) : (s.dictWrite i v).input = s.input := rfl
@[simp] theorem State.dictWrite_phase (i : DictIndex) (v : Byte) : (s.dictWrite i v).phase = s.phase := rfl
@[simp] theorem State.dictWrite_cur (i : DictIndex) (v : Byte) : (s.dictWrite i v).cur = s.cur := rfl
@[simp] theorem State.dictWrite_bound (i : DictIndex) (v : Byte) : (s.dictWrite i v).bound = s.bound := rfl
@[simp] theorem State.dictWrite_hdr (i : DictIndex) (v : Byte) : (s.dictWrite i v).hdr = s.hdr := rfl
@[simp] theorem State.dictWrite_dict (i : DictIndex) (v : Byte) : (s.dictWrite i v).dict = s.dict.write i.toNat v := rfl
@[simp] theorem State.dictWrite_wrapped (i : DictIndex) (v : Byte) : (s.dictWrite i v).wrapped = s.wrapped := rfl
@[simp] theorem State.dictWrite_w (i : DictIndex) (v : Byte) : (s.dictWrite i v).w = s.w := rfl
@[simp] theorem State.dictWrite_r (i : DictIndex) (v : Byte) : (s.dictWrite i v).r = s.r := rfl
@[simp] theorem State.dictWrite_ctrl (i : DictIndex) (v : Byte) : (s.dictWrite i v).ctrl = s.ctrl := rfl
@[simp] theorem State.dictWrite_tok (i : DictIndex) (v : Byte) : (s.dictWrite i v).tok = s.tok := rfl
@[simp] theorem State.dictWrite_copyRemaining (i : DictIndex) (v : Byte) : (s.dictWrite i v).copyRemaining = s.copyRemaining := rfl
@[simp] theorem State.dictWrite_bitIndex (i : DictIndex) (v : Byte) : (s.dictWrite i v).bitIndex = s.bitIndex := rfl
@[simp] theorem State.dictWrite_out (i : DictIndex) (v : Byte) : (s.dictWrite i v).out = s.out := rfl
@[simp] theorem State.dictWrite_result (i : DictIndex) (v : Byte) : (s.dictWrite i v).result = s.result := rfl
@[simp] theorem State.dictWrite_termReason (i : DictIndex) (v : Byte) : (s.dictWrite i v).termReason = s.termReason := rfl
@[simp] theorem State.dictWrite_draws (i : DictIndex) (v : Byte) : (s.dictWrite i v).draws = s.draws := rfl

/-! ### advanceW -/

@[simp] theorem State.advanceW_params : (s.advanceW).params = s.params := rfl
@[simp] theorem State.advanceW_input : (s.advanceW).input = s.input := rfl
@[simp] theorem State.advanceW_phase : (s.advanceW).phase = s.phase := rfl
@[simp] theorem State.advanceW_cur : (s.advanceW).cur = s.cur := rfl
@[simp] theorem State.advanceW_bound : (s.advanceW).bound = s.bound := rfl
@[simp] theorem State.advanceW_hdr : (s.advanceW).hdr = s.hdr := rfl
@[simp] theorem State.advanceW_dict : (s.advanceW).dict = s.dict := rfl
@[simp] theorem State.advanceW_wrapped : (s.advanceW).wrapped = (s.wrapped || decide (s.w + 1#12 = 0#12)) := rfl
@[simp] theorem State.advanceW_w : (s.advanceW).w = s.w + 1#12 := rfl
@[simp] theorem State.advanceW_r : (s.advanceW).r = s.r := rfl
@[simp] theorem State.advanceW_ctrl : (s.advanceW).ctrl = s.ctrl := rfl
@[simp] theorem State.advanceW_tok : (s.advanceW).tok = s.tok := rfl
@[simp] theorem State.advanceW_copyRemaining : (s.advanceW).copyRemaining = s.copyRemaining := rfl
@[simp] theorem State.advanceW_bitIndex : (s.advanceW).bitIndex = s.bitIndex := rfl
@[simp] theorem State.advanceW_out : (s.advanceW).out = s.out := rfl
@[simp] theorem State.advanceW_result : (s.advanceW).result = s.result := rfl
@[simp] theorem State.advanceW_termReason : (s.advanceW).termReason = s.termReason := rfl
@[simp] theorem State.advanceW_draws : (s.advanceW).draws = s.draws := rfl

/-! ### advanceR -/

@[simp] theorem State.advanceR_params : (s.advanceR).params = s.params := rfl
@[simp] theorem State.advanceR_input : (s.advanceR).input = s.input := rfl
@[simp] theorem State.advanceR_phase : (s.advanceR).phase = s.phase := rfl
@[simp] theorem State.advanceR_cur : (s.advanceR).cur = s.cur := rfl
@[simp] theorem State.advanceR_bound : (s.advanceR).bound = s.bound := rfl
@[simp] theorem State.advanceR_hdr : (s.advanceR).hdr = s.hdr := rfl
@[simp] theorem State.advanceR_dict : (s.advanceR).dict = s.dict := rfl
@[simp] theorem State.advanceR_wrapped : (s.advanceR).wrapped = s.wrapped := rfl
@[simp] theorem State.advanceR_w : (s.advanceR).w = s.w := rfl
@[simp] theorem State.advanceR_r : (s.advanceR).r = s.r + 1#12 := rfl
@[simp] theorem State.advanceR_ctrl : (s.advanceR).ctrl = s.ctrl := rfl
@[simp] theorem State.advanceR_tok : (s.advanceR).tok = s.tok := rfl
@[simp] theorem State.advanceR_copyRemaining : (s.advanceR).copyRemaining = s.copyRemaining := rfl
@[simp] theorem State.advanceR_bitIndex : (s.advanceR).bitIndex = s.bitIndex := rfl
@[simp] theorem State.advanceR_out : (s.advanceR).out = s.out := rfl
@[simp] theorem State.advanceR_result : (s.advanceR).result = s.result := rfl
@[simp] theorem State.advanceR_termReason : (s.advanceR).termReason = s.termReason := rfl
@[simp] theorem State.advanceR_draws : (s.advanceR).draws = s.draws := rfl

/-! ### advanceCur -/

@[simp] theorem State.advanceCur_params (n : Nat) : (s.advanceCur n).params = s.params := rfl
@[simp] theorem State.advanceCur_input (n : Nat) : (s.advanceCur n).input = s.input := rfl
@[simp] theorem State.advanceCur_phase (n : Nat) : (s.advanceCur n).phase = s.phase := rfl
@[simp] theorem State.advanceCur_cur (n : Nat) : (s.advanceCur n).cur = s.cur + n := rfl
@[simp] theorem State.advanceCur_bound (n : Nat) : (s.advanceCur n).bound = s.bound := rfl
@[simp] theorem State.advanceCur_hdr (n : Nat) : (s.advanceCur n).hdr = s.hdr := rfl
@[simp] theorem State.advanceCur_dict (n : Nat) : (s.advanceCur n).dict = s.dict := rfl
@[simp] theorem State.advanceCur_wrapped (n : Nat) : (s.advanceCur n).wrapped = s.wrapped := rfl
@[simp] theorem State.advanceCur_w (n : Nat) : (s.advanceCur n).w = s.w := rfl
@[simp] theorem State.advanceCur_r (n : Nat) : (s.advanceCur n).r = s.r := rfl
@[simp] theorem State.advanceCur_ctrl (n : Nat) : (s.advanceCur n).ctrl = s.ctrl := rfl
@[simp] theorem State.advanceCur_tok (n : Nat) : (s.advanceCur n).tok = s.tok := rfl
@[simp] theorem State.advanceCur_copyRemaining (n : Nat) : (s.advanceCur n).copyRemaining = s.copyRemaining := rfl
@[simp] theorem State.advanceCur_bitIndex (n : Nat) : (s.advanceCur n).bitIndex = s.bitIndex := rfl
@[simp] theorem State.advanceCur_out (n : Nat) : (s.advanceCur n).out = s.out := rfl
@[simp] theorem State.advanceCur_result (n : Nat) : (s.advanceCur n).result = s.result := rfl
@[simp] theorem State.advanceCur_termReason (n : Nat) : (s.advanceCur n).termReason = s.termReason := rfl
@[simp] theorem State.advanceCur_draws (n : Nat) : (s.advanceCur n).draws = s.draws := rfl

/-! ### advanceBit -/

@[simp] theorem State.advanceBit_params : (s.advanceBit).params = s.params := rfl
@[simp] theorem State.advanceBit_input : (s.advanceBit).input = s.input := rfl
@[simp] theorem State.advanceBit_phase : (s.advanceBit).phase = s.phase := rfl
@[simp] theorem State.advanceBit_cur : (s.advanceBit).cur = s.cur := rfl
@[simp] theorem State.advanceBit_bound : (s.advanceBit).bound = s.bound := rfl
@[simp] theorem State.advanceBit_hdr : (s.advanceBit).hdr = s.hdr := rfl
@[simp] theorem State.advanceBit_dict : (s.advanceBit).dict = s.dict := rfl
@[simp] theorem State.advanceBit_wrapped : (s.advanceBit).wrapped = s.wrapped := rfl
@[simp] theorem State.advanceBit_w : (s.advanceBit).w = s.w := rfl
@[simp] theorem State.advanceBit_r : (s.advanceBit).r = s.r := rfl
@[simp] theorem State.advanceBit_ctrl : (s.advanceBit).ctrl = s.ctrl := rfl
@[simp] theorem State.advanceBit_tok : (s.advanceBit).tok = s.tok := rfl
@[simp] theorem State.advanceBit_copyRemaining : (s.advanceBit).copyRemaining = s.copyRemaining := rfl
@[simp] theorem State.advanceBit_bitIndex : (s.advanceBit).bitIndex = s.bitIndex + 1 := rfl
@[simp] theorem State.advanceBit_out : (s.advanceBit).out = s.out := rfl
@[simp] theorem State.advanceBit_result : (s.advanceBit).result = s.result := rfl
@[simp] theorem State.advanceBit_termReason : (s.advanceBit).termReason = s.termReason := rfl
@[simp] theorem State.advanceBit_draws : (s.advanceBit).draws = s.draws := rfl

/-! ### setPhase -/

@[simp] theorem State.setPhase_params (p : Phase) : (s.setPhase p).params = s.params := rfl
@[simp] theorem State.setPhase_input (p : Phase) : (s.setPhase p).input = s.input := rfl
@[simp] theorem State.setPhase_phase (p : Phase) : (s.setPhase p).phase = p := rfl
@[simp] theorem State.setPhase_cur (p : Phase) : (s.setPhase p).cur = s.cur := rfl
@[simp] theorem State.setPhase_bound (p : Phase) : (s.setPhase p).bound = s.bound := rfl
@[simp] theorem State.setPhase_hdr (p : Phase) : (s.setPhase p).hdr = s.hdr := rfl
@[simp] theorem State.setPhase_dict (p : Phase) : (s.setPhase p).dict = s.dict := rfl
@[simp] theorem State.setPhase_wrapped (p : Phase) : (s.setPhase p).wrapped = s.wrapped := rfl
@[simp] theorem State.setPhase_w (p : Phase) : (s.setPhase p).w = s.w := rfl
@[simp] theorem State.setPhase_r (p : Phase) : (s.setPhase p).r = s.r := rfl
@[simp] theorem State.setPhase_ctrl (p : Phase) : (s.setPhase p).ctrl = s.ctrl := rfl
@[simp] theorem State.setPhase_tok (p : Phase) : (s.setPhase p).tok = s.tok := rfl
@[simp] theorem State.setPhase_copyRemaining (p : Phase) : (s.setPhase p).copyRemaining = s.copyRemaining := rfl
@[simp] theorem State.setPhase_bitIndex (p : Phase) : (s.setPhase p).bitIndex = s.bitIndex := rfl
@[simp] theorem State.setPhase_out (p : Phase) : (s.setPhase p).out = s.out := rfl
@[simp] theorem State.setPhase_result (p : Phase) : (s.setPhase p).result = s.result := rfl
@[simp] theorem State.setPhase_termReason (p : Phase) : (s.setPhase p).termReason = s.termReason := rfl
@[simp] theorem State.setPhase_draws (p : Phase) : (s.setPhase p).draws = s.draws := rfl

/-! ### toNextToken -/

@[simp] theorem State.toNextToken_params : (s.toNextToken).params = s.params := rfl
@[simp] theorem State.toNextToken_input : (s.toNextToken).input = s.input := rfl
@[simp] theorem State.toNextToken_phase : (s.toNextToken).phase = nextTokenPhase s.ctrl s.bitIndex := rfl
@[simp] theorem State.toNextToken_cur : (s.toNextToken).cur = s.cur := rfl
@[simp] theorem State.toNextToken_bound : (s.toNextToken).bound = s.bound := rfl
@[simp] theorem State.toNextToken_hdr : (s.toNextToken).hdr = s.hdr := rfl
@[simp] theorem State.toNextToken_dict : (s.toNextToken).dict = s.dict := rfl
@[simp] theorem State.toNextToken_wrapped : (s.toNextToken).wrapped = s.wrapped := rfl
@[simp] theorem State.toNextToken_w : (s.toNextToken).w = s.w := rfl
@[simp] theorem State.toNextToken_r : (s.toNextToken).r = s.r := rfl
@[simp] theorem State.toNextToken_ctrl : (s.toNextToken).ctrl = s.ctrl := rfl
@[simp] theorem State.toNextToken_tok : (s.toNextToken).tok = s.tok := rfl
@[simp] theorem State.toNextToken_copyRemaining : (s.toNextToken).copyRemaining = s.copyRemaining := rfl
@[simp] theorem State.toNextToken_bitIndex : (s.toNextToken).bitIndex = s.bitIndex := rfl
@[simp] theorem State.toNextToken_out : (s.toNextToken).out = s.out := rfl
@[simp] theorem State.toNextToken_result : (s.toNextToken).result = s.result := rfl
@[simp] theorem State.toNextToken_termReason : (s.toNextToken).termReason = s.termReason := rfl
@[simp] theorem State.toNextToken_draws : (s.toNextToken).draws = s.draws := rfl

/-! ### produce -/

@[simp] theorem State.produce_params (v : Byte) : (s.produce v).params = s.params := rfl
@[simp] theorem State.produce_input (v : Byte) : (s.produce v).input = s.input := rfl
@[simp] theorem State.produce_phase (v : Byte) : (s.produce v).phase = s.phase := rfl
@[simp] theorem State.produce_cur (v : Byte) : (s.produce v).cur = s.cur := rfl
@[simp] theorem State.produce_bound (v : Byte) : (s.produce v).bound = s.bound := rfl
@[simp] theorem State.produce_hdr (v : Byte) : (s.produce v).hdr = s.hdr := rfl
@[simp] theorem State.produce_dict (v : Byte) : (s.produce v).dict = s.dict.write s.w.toNat v := rfl
@[simp] theorem State.produce_wrapped (v : Byte) : (s.produce v).wrapped = (s.wrapped || decide (s.w + 1#12 = 0#12)) := rfl
@[simp] theorem State.produce_w (v : Byte) : (s.produce v).w = s.w + 1#12 := rfl
@[simp] theorem State.produce_r (v : Byte) : (s.produce v).r = s.r := rfl
@[simp] theorem State.produce_ctrl (v : Byte) : (s.produce v).ctrl = s.ctrl := rfl
@[simp] theorem State.produce_tok (v : Byte) : (s.produce v).tok = s.tok := rfl
@[simp] theorem State.produce_copyRemaining (v : Byte) : (s.produce v).copyRemaining = s.copyRemaining := rfl
@[simp] theorem State.produce_bitIndex (v : Byte) : (s.produce v).bitIndex = s.bitIndex := rfl
@[simp] theorem State.produce_out (v : Byte) : (s.produce v).out = s.out ++ [v] := rfl
@[simp] theorem State.produce_result (v : Byte) : (s.produce v).result = s.result := rfl
@[simp] theorem State.produce_termReason (v : Byte) : (s.produce v).termReason = s.termReason := rfl
@[simp] theorem State.produce_draws (v : Byte) : (s.produce v).draws = s.draws := rfl

/-! ### finish -/

@[simp] theorem State.finish_params (reason : TermReason) : (s.finish reason).params = s.params := rfl
@[simp] theorem State.finish_input (reason : TermReason) : (s.finish reason).input = s.input := rfl
@[simp] theorem State.finish_phase (reason : TermReason) : (s.finish reason).phase = .done := rfl
@[simp] theorem State.finish_cur (reason : TermReason) : (s.finish reason).cur = s.cur := rfl
@[simp] theorem State.finish_bound (reason : TermReason) : (s.finish reason).bound = s.bound := rfl
@[simp] theorem State.finish_hdr (reason : TermReason) : (s.finish reason).hdr = s.hdr := rfl
@[simp] theorem State.finish_dict (reason : TermReason) : (s.finish reason).dict = s.dict := rfl
@[simp] theorem State.finish_wrapped (reason : TermReason) : (s.finish reason).wrapped = s.wrapped := rfl
@[simp] theorem State.finish_w (reason : TermReason) : (s.finish reason).w = s.w := rfl
@[simp] theorem State.finish_r (reason : TermReason) : (s.finish reason).r = s.r := rfl
@[simp] theorem State.finish_ctrl (reason : TermReason) : (s.finish reason).ctrl = s.ctrl := rfl
@[simp] theorem State.finish_tok (reason : TermReason) : (s.finish reason).tok = s.tok := rfl
@[simp] theorem State.finish_copyRemaining (reason : TermReason) : (s.finish reason).copyRemaining = s.copyRemaining := rfl
@[simp] theorem State.finish_bitIndex (reason : TermReason) : (s.finish reason).bitIndex = s.bitIndex := rfl
@[simp] theorem State.finish_out (reason : TermReason) : (s.finish reason).out = s.out := rfl
@[simp] theorem State.finish_result (reason : TermReason) : (s.finish reason).result = some (.ok s.out) := rfl
@[simp] theorem State.finish_termReason (reason : TermReason) : (s.finish reason).termReason = reason := rfl
@[simp] theorem State.finish_draws (reason : TermReason) : (s.finish reason).draws = s.draws := rfl

/-! ### raise -/

@[simp] theorem State.raise_params (e : RunError) : (s.raise e).params = s.params := rfl
@[simp] theorem State.raise_input (e : RunError) : (s.raise e).input = s.input := rfl
@[simp] theorem State.raise_phase (e : RunError) : (s.raise e).phase = .done := rfl
@[simp] theorem State.raise_cur (e : RunError) : (s.raise e).cur = s.cur := rfl
@[simp] theorem State.raise_bound (e : RunError) : (s.raise e).bound = s.bound := rfl
@[simp] theorem State.raise_hdr (e : RunError) : (s.raise e).hdr = s.hdr := rfl
@[simp] theorem State.raise_dict (e : RunError) : (s.raise e).dict = s.dict := rfl
@[simp] theorem State.raise_wrapped (e : RunError) : (s.raise e).wrapped = s.wrapped := rfl
@[simp] theorem State.raise_w (e : RunError) : (s.raise e).w = s.w := rfl
@[simp] theorem State.raise_r (e : RunError) : (s.raise e).r = s.r := rfl
@[simp] theorem State.raise_ctrl (e : RunError) : (s.raise e).ctrl = s.ctrl := rfl
@[simp] theorem State.raise_tok (e : RunError) : (s.raise e).tok = s.tok := rfl
@[simp] theorem State.raise_copyRemaining (e : RunError) : (s.raise e).copyRemaining = s.copyRemaining := rfl
@[simp] theorem State.raise_bitIndex (e : RunError) : (s.raise e).bitIndex = s.bitIndex := rfl
@[simp] theorem State.raise_out (e : RunError) : (s.raise e).out = s.out := rfl
@[simp] theorem State.raise_result (e : RunError) : (s.raise e).result = some (.err e) := rfl
@[simp] theorem State.raise_termReason (e : RunError) : (s.raise e).termReason = s.termReason := rfl
@[simp] theorem State.raise_draws (e : RunError) : (s.raise e).draws = s.draws := rfl

/-! ### drawU8 -/

@[simp] theorem State.drawU8_params : (s.drawU8.2).params = s.params := rfl
@[simp] theorem State.drawU8_input : (s.drawU8.2).input = s.input := rfl
@[simp] theorem State.drawU8_phase : (s.drawU8.2).phase = s.phase := rfl
@[simp] theorem State.drawU8_cur : (s.drawU8.2).cur = s.cur := rfl
@[simp] theorem State.drawU8_bound : (s.drawU8.2).bound = s.bound := rfl
@[simp] theorem State.drawU8_hdr : (s.drawU8.2).hdr = s.hdr := rfl
@[simp] theorem State.drawU8_dict : (s.drawU8.2).dict = s.dict := rfl
@[simp] theorem State.drawU8_wrapped : (s.drawU8.2).wrapped = s.wrapped := rfl
@[simp] theorem State.drawU8_w : (s.drawU8.2).w = s.w := rfl
@[simp] theorem State.drawU8_r : (s.drawU8.2).r = s.r := rfl
@[simp] theorem State.drawU8_ctrl : (s.drawU8.2).ctrl = s.ctrl := rfl
@[simp] theorem State.drawU8_tok : (s.drawU8.2).tok = s.tok := rfl
@[simp] theorem State.drawU8_copyRemaining : (s.drawU8.2).copyRemaining = s.copyRemaining := rfl
@[simp] theorem State.drawU8_bitIndex : (s.drawU8.2).bitIndex = s.bitIndex := rfl
@[simp] theorem State.drawU8_out : (s.drawU8.2).out = s.out := rfl
@[simp] theorem State.drawU8_result : (s.drawU8.2).result = s.result := rfl
@[simp] theorem State.drawU8_termReason : (s.drawU8.2).termReason = s.termReason := rfl
@[simp] theorem State.drawU8_draws : (s.drawU8.2).draws = s.draws + 1 := rfl

/-! ### drawU32 -/

@[simp] theorem State.drawU32_params : (s.drawU32.2).params = s.params := rfl
@[simp] theorem State.drawU32_input : (s.drawU32.2).input = s.input := rfl
@[simp] theorem State.drawU32_phase : (s.drawU32.2).phase = s.phase := rfl
@[simp] theorem State.drawU32_cur : (s.drawU32.2).cur = s.cur := rfl
@[simp] theorem State.drawU32_bound : (s.drawU32.2).bound = s.bound := rfl
@[simp] theorem State.drawU32_hdr : (s.drawU32.2).hdr = s.hdr := rfl
@[simp] theorem State.drawU32_dict : (s.drawU32.2).dict = s.dict := rfl
@[simp] theorem State.drawU32_wrapped : (s.drawU32.2).wrapped = s.wrapped := rfl
@[simp] theorem State.drawU32_w : (s.drawU32.2).w = s.w := rfl
@[simp] theorem State.drawU32_r : (s.drawU32.2).r = s.r := rfl
@[simp] theorem State.drawU32_ctrl : (s.drawU32.2).ctrl = s.ctrl := rfl
@[simp] theorem State.drawU32_tok : (s.drawU32.2).tok = s.tok := rfl
@[simp] theorem State.drawU32_copyRemaining : (s.drawU32.2).copyRemaining = s.copyRemaining := rfl
@[simp] theorem State.drawU32_bitIndex : (s.drawU32.2).bitIndex = s.bitIndex := rfl
@[simp] theorem State.drawU32_out : (s.drawU32.2).out = s.out := rfl
@[simp] theorem State.drawU32_result : (s.drawU32.2).result = s.result := rfl
@[simp] theorem State.drawU32_termReason : (s.drawU32.2).termReason = s.termReason := rfl
@[simp] theorem State.drawU32_draws : (s.drawU32.2).draws = s.draws + 1 := rfl

/-! ### storeHeader -/

@[simp] theorem State.storeHeader_params (h : RawHeader) : (s.storeHeader h).params = s.params := rfl
@[simp] theorem State.storeHeader_input (h : RawHeader) : (s.storeHeader h).input = s.input := rfl
@[simp] theorem State.storeHeader_phase (h : RawHeader) : (s.storeHeader h).phase = s.phase := rfl
@[simp] theorem State.storeHeader_cur (h : RawHeader) : (s.storeHeader h).cur = s.cur + 16 := rfl
@[simp] theorem State.storeHeader_bound (h : RawHeader) : (s.storeHeader h).bound = s.bound := rfl
@[simp] theorem State.storeHeader_hdr (h : RawHeader) : (s.storeHeader h).hdr = ⟨h.compressedSize, h.rawSize, h.kindRaw, s.hdr.kind, h.checksum⟩ := rfl
@[simp] theorem State.storeHeader_dict (h : RawHeader) : (s.storeHeader h).dict = s.dict := rfl
@[simp] theorem State.storeHeader_wrapped (h : RawHeader) : (s.storeHeader h).wrapped = s.wrapped := rfl
@[simp] theorem State.storeHeader_w (h : RawHeader) : (s.storeHeader h).w = s.w := rfl
@[simp] theorem State.storeHeader_r (h : RawHeader) : (s.storeHeader h).r = s.r := rfl
@[simp] theorem State.storeHeader_ctrl (h : RawHeader) : (s.storeHeader h).ctrl = s.ctrl := rfl
@[simp] theorem State.storeHeader_tok (h : RawHeader) : (s.storeHeader h).tok = s.tok := rfl
@[simp] theorem State.storeHeader_copyRemaining (h : RawHeader) : (s.storeHeader h).copyRemaining = s.copyRemaining := rfl
@[simp] theorem State.storeHeader_bitIndex (h : RawHeader) : (s.storeHeader h).bitIndex = s.bitIndex := rfl
@[simp] theorem State.storeHeader_out (h : RawHeader) : (s.storeHeader h).out = s.out := rfl
@[simp] theorem State.storeHeader_result (h : RawHeader) : (s.storeHeader h).result = s.result := rfl
@[simp] theorem State.storeHeader_termReason (h : RawHeader) : (s.storeHeader h).termReason = s.termReason := rfl
@[simp] theorem State.storeHeader_draws (h : RawHeader) : (s.storeHeader h).draws = s.draws := rfl

/-! ### setKind -/

@[simp] theorem State.setKind_params (k : Kind) : (s.setKind k).params = s.params := rfl
@[simp] theorem State.setKind_input (k : Kind) : (s.setKind k).input = s.input := rfl
@[simp] theorem State.setKind_phase (k : Kind) : (s.setKind k).phase = s.phase := rfl
@[simp] theorem State.setKind_cur (k : Kind) : (s.setKind k).cur = s.cur := rfl
@[simp] theorem State.setKind_bound (k : Kind) : (s.setKind k).bound = s.bound := rfl
@[simp] theorem State.setKind_hdr (k : Kind) : (s.setKind k).hdr = ⟨s.hdr.compressedSize, s.hdr.rawSize, s.hdr.kindRaw, some k, s.hdr.checksum⟩ := rfl
@[simp] theorem State.setKind_dict (k : Kind) : (s.setKind k).dict = s.dict := rfl
@[simp] theorem State.setKind_wrapped (k : Kind) : (s.setKind k).wrapped = s.wrapped := rfl
@[simp] theorem State.setKind_w (k : Kind) : (s.setKind k).w = s.w := rfl
@[simp] theorem State.setKind_r (k : Kind) : (s.setKind k).r = s.r := rfl
@[simp] theorem State.setKind_ctrl (k : Kind) : (s.setKind k).ctrl = s.ctrl := rfl
@[simp] theorem State.setKind_tok (k : Kind) : (s.setKind k).tok = s.tok := rfl
@[simp] theorem State.setKind_copyRemaining (k : Kind) : (s.setKind k).copyRemaining = s.copyRemaining := rfl
@[simp] theorem State.setKind_bitIndex (k : Kind) : (s.setKind k).bitIndex = s.bitIndex := rfl
@[simp] theorem State.setKind_out (k : Kind) : (s.setKind k).out = s.out := rfl
@[simp] theorem State.setKind_result (k : Kind) : (s.setKind k).result = s.result := rfl
@[simp] theorem State.setKind_termReason (k : Kind) : (s.setKind k).termReason = s.termReason := rfl
@[simp] theorem State.setKind_draws (k : Kind) : (s.setKind k).draws = s.draws := rfl

/-! ### storeToken -/

@[simp] theorem State.storeToken_params (o : DictIndex) (l : Nibble) : (s.storeToken o l).params = s.params := rfl
@[simp] theorem State.storeToken_input (o : DictIndex) (l : Nibble) : (s.storeToken o l).input = s.input := rfl
@[simp] theorem State.storeToken_phase (o : DictIndex) (l : Nibble) : (s.storeToken o l).phase = s.phase := rfl
@[simp] theorem State.storeToken_cur (o : DictIndex) (l : Nibble) : (s.storeToken o l).cur = s.cur + 2 := rfl
@[simp] theorem State.storeToken_bound (o : DictIndex) (l : Nibble) : (s.storeToken o l).bound = s.bound := rfl
@[simp] theorem State.storeToken_hdr (o : DictIndex) (l : Nibble) : (s.storeToken o l).hdr = s.hdr := rfl
@[simp] theorem State.storeToken_dict (o : DictIndex) (l : Nibble) : (s.storeToken o l).dict = s.dict := rfl
@[simp] theorem State.storeToken_wrapped (o : DictIndex) (l : Nibble) : (s.storeToken o l).wrapped = s.wrapped := rfl
@[simp] theorem State.storeToken_w (o : DictIndex) (l : Nibble) : (s.storeToken o l).w = s.w := rfl
@[simp] theorem State.storeToken_r (o : DictIndex) (l : Nibble) : (s.storeToken o l).r = s.r := rfl
@[simp] theorem State.storeToken_ctrl (o : DictIndex) (l : Nibble) : (s.storeToken o l).ctrl = s.ctrl := rfl
@[simp] theorem State.storeToken_tok (o : DictIndex) (l : Nibble) : (s.storeToken o l).tok = mkToken o l := rfl
@[simp] theorem State.storeToken_copyRemaining (o : DictIndex) (l : Nibble) : (s.storeToken o l).copyRemaining = s.copyRemaining := rfl
@[simp] theorem State.storeToken_bitIndex (o : DictIndex) (l : Nibble) : (s.storeToken o l).bitIndex = s.bitIndex := rfl
@[simp] theorem State.storeToken_out (o : DictIndex) (l : Nibble) : (s.storeToken o l).out = s.out := rfl
@[simp] theorem State.storeToken_result (o : DictIndex) (l : Nibble) : (s.storeToken o l).result = s.result := rfl
@[simp] theorem State.storeToken_termReason (o : DictIndex) (l : Nibble) : (s.storeToken o l).termReason = s.termReason := rfl
@[simp] theorem State.storeToken_draws (o : DictIndex) (l : Nibble) : (s.storeToken o l).draws = s.draws := rfl

/-! ### startCopy -/

@[simp] theorem State.startCopy_params (o : DictIndex) (l : Nibble) : (s.startCopy o l).params = s.params := rfl
@[simp] theorem State.startCopy_input (o : DictIndex) (l : Nibble) : (s.startCopy o l).input = s.input := rfl
@[simp] theorem State.startCopy_phase (o : DictIndex) (l : Nibble) : (s.startCopy o l).phase = .copy := rfl
@[simp] theorem State.startCopy_cur (o : DictIndex) (l : Nibble) : (s.startCopy o l).cur = s.cur := rfl
@[simp] theorem State.startCopy_bound (o : DictIndex) (l : Nibble) : (s.startCopy o l).bound = s.bound := rfl
@[simp] theorem State.startCopy_hdr (o : DictIndex) (l : Nibble) : (s.startCopy o l).hdr = s.hdr := rfl
@[simp] theorem State.startCopy_dict (o : DictIndex) (l : Nibble) : (s.startCopy o l).dict = s.dict := rfl
@[simp] theorem State.startCopy_wrapped (o : DictIndex) (l : Nibble) : (s.startCopy o l).wrapped = s.wrapped := rfl
@[simp] theorem State.startCopy_w (o : DictIndex) (l : Nibble) : (s.startCopy o l).w = s.w := rfl
@[simp] theorem State.startCopy_r (o : DictIndex) (l : Nibble) : (s.startCopy o l).r = o := rfl
@[simp] theorem State.startCopy_ctrl (o : DictIndex) (l : Nibble) : (s.startCopy o l).ctrl = s.ctrl := rfl
@[simp] theorem State.startCopy_tok (o : DictIndex) (l : Nibble) : (s.startCopy o l).tok = s.tok := rfl
@[simp] theorem State.startCopy_copyRemaining (o : DictIndex) (l : Nibble) : (s.startCopy o l).copyRemaining = actualLength l := rfl
@[simp] theorem State.startCopy_bitIndex (o : DictIndex) (l : Nibble) : (s.startCopy o l).bitIndex = s.bitIndex + 1 := rfl
@[simp] theorem State.startCopy_out (o : DictIndex) (l : Nibble) : (s.startCopy o l).out = s.out := rfl
@[simp] theorem State.startCopy_result (o : DictIndex) (l : Nibble) : (s.startCopy o l).result = s.result := rfl
@[simp] theorem State.startCopy_termReason (o : DictIndex) (l : Nibble) : (s.startCopy o l).termReason = s.termReason := rfl
@[simp] theorem State.startCopy_draws (o : DictIndex) (l : Nibble) : (s.startCopy o l).draws = s.draws := rfl

end Sys2Proof.Machine
end

