-- ==== Sys2Proof/Laws/Ops.lean ====
section
/-!
SUPPORT. For each shared operation, once, everything it can do.
-/

namespace Sys2Proof.Machine

/-! ### Dictionary reads (00_scope.md R12) -/

/-- A dictionary read answers the cell's value, or else the fill byte, or else a draw. -/
theorem dictRead_cases (s : State) (i : DictIndex) :
    (∃ v, s.cellValue i = some v ∧ s.dictRead i = (v, s)) ∨
    (∃ v, s.cellValue i = none ∧ s.params.dictFill = some v ∧ s.dictRead i = (v, s)) ∨
    (s.cellValue i = none ∧ s.params.dictFill = none ∧
      s.dictRead i = (Config.drawU8 s.draws, { s with draws := s.draws + 1 })) := by
  unfold State.dictRead
  cases hc : s.cellValue i with
  | some v => exact .inl ⟨v, rfl, rfl⟩
  | none =>
    refine .inr ?_
    unfold State.unwrittenValue
    cases hf : s.params.dictFill with
    | some v => exact .inl ⟨v, rfl, rfl, rfl⟩
    | none => exact .inr ⟨rfl, rfl, rfl⟩

/-- A dictionary read changes nothing but the draw counter. -/
theorem dictRead_state (s : State) (i : DictIndex) :
    (s.dictRead i).2 = s ∨ (s.dictRead i).2 = { s with draws := s.draws + 1 } := by
  rcases dictRead_cases s i with ⟨v, _, h⟩ | ⟨v, _, _, h⟩ | ⟨_, _, h⟩
  · exact .inl (by rw [h])
  · exact .inl (by rw [h])
  · exact .inr (by rw [h])

/-- A dictionary read of a cell that has a value makes no draw. -/
theorem dictRead_of_value {s : State} {i : DictIndex} {v : Byte} (h : s.cellValue i = some v) :
    s.dictRead i = (v, s) := by
  simp [State.dictRead, h]

section DictReadFields
variable (s : State) (i : DictIndex)

@[simp] theorem dictRead_params : (s.dictRead i).2.params = s.params := by
  rcases dictRead_state s i with h | h <;> rw [h]
@[simp] theorem dictRead_input : (s.dictRead i).2.input = s.input := by
  rcases dictRead_state s i with h | h <;> rw [h]
@[simp] theorem dictRead_phase : (s.dictRead i).2.phase = s.phase := by
  rcases dictRead_state s i with h | h <;> rw [h]
@[simp] theorem dictRead_cur : (s.dictRead i).2.cur = s.cur := by
  rcases dictRead_state s i with h | h <;> rw [h]
@[simp] theorem dictRead_bound : (s.dictRead i).2.bound = s.bound := by
  rcases dictRead_state s i with h | h <;> rw [h]
@[simp] theorem dictRead_hdr : (s.dictRead i).2.hdr = s.hdr := by
  rcases dictRead_state s i with h | h <;> rw [h]
@[simp] theorem dictRead_dict : (s.dictRead i).2.dict = s.dict := by
  rcases dictRead_state s i with h | h <;> rw [h]
@[simp] theorem dictRead_wrapped : (s.dictRead i).2.wrapped = s.wrapped := by
  rcases dictRead_state s i with h | h <;> rw [h]
@[simp] theorem dictRead_w : (s.dictRead i).2.w = s.w := by
  rcases dictRead_state s i with h | h <;> rw [h]
@[simp] theorem dictRead_r : (s.dictRead i).2.r = s.r := by
  rcases dictRead_state s i with h | h <;> rw [h]
@[simp] theorem dictRead_ctrl : (s.dictRead i).2.ctrl = s.ctrl := by
  rcases dictRead_state s i with h | h <;> rw [h]
@[simp] theorem dictRead_tok : (s.dictRead i).2.tok = s.tok := by
  rcases dictRead_state s i with h | h <;> rw [h]
@[simp] theorem dictRead_copyRemaining : (s.dictRead i).2.copyRemaining = s.copyRemaining := by
  rcases dictRead_state s i with h | h <;> rw [h]
@[simp] theorem dictRead_bitIndex : (s.dictRead i).2.bitIndex = s.bitIndex := by
  rcases dictRead_state s i with h | h <;> rw [h]
@[simp] theorem dictRead_out : (s.dictRead i).2.out = s.out := by
  rcases dictRead_state s i with h | h <;> rw [h]
@[simp] theorem dictRead_result : (s.dictRead i).2.result = s.result := by
  rcases dictRead_state s i with h | h <;> rw [h]
@[simp] theorem dictRead_termReason : (s.dictRead i).2.termReason = s.termReason := by
  rcases dictRead_state s i with h | h <;> rw [h]

end DictReadFields

/-! ### Token sequencing (42_compressed_path.md R103) -/

theorem nextTokenPhase_eq_ctrl (c : Byte) (i : Nat) : nextTokenPhase c i = .ctrl ↔ i = 8 := by
  unfold nextTokenPhase
  split
  · simp [*]
  · split <;> simp [*]

theorem nextTokenPhase_eq_lit (c : Byte) (i : Nat) : nextTokenPhase c i = .lit ↔ i ≠ 8 ∧ controlBit c i = false := by
  unfold nextTokenPhase controlBit
  split
  · simp [*]
  · split <;> simp_all

theorem nextTokenPhase_eq_ref (c : Byte) (i : Nat) : nextTokenPhase c i = .ref ↔ i ≠ 8 ∧ controlBit c i = true := by
  unfold nextTokenPhase controlBit
  split
  · simp [*]
  · split <;> simp_all

/-- The next token's phase is one of three. -/
theorem nextTokenPhase_cases (c : Byte) (i : Nat) :
    nextTokenPhase c i = .ctrl ∨ nextTokenPhase c i = .lit ∨ nextTokenPhase c i = .ref := by
  unfold nextTokenPhase
  split
  · exact .inl rfl
  · split
    · exact .inr (.inr rfl)
    · exact .inr (.inl rfl)

/-! ### The write position (10_state.md R27, R28) -/

theorem advanceW_wraps (w : DictIndex) : w + 1#12 = 0#12 ↔ w = 4095#12 := by
  constructor
  · intro h
    bv_omega
  · rintro rfl
    decide

/-- A byte produced makes its cell, and no other, written. -/
theorem produce_written (s : State) (v : Byte) (i : DictIndex) :
    (s.produce v).written i = (s.written i || decide (i = s.w)) := by
  have hi := i.isLt
  simp only [State.written, State.produce_wrapped, State.produce_w]
  by_cases hw : s.w = 4095#12
  · have hz := (advanceW_wraps s.w).2 hw
    by_cases he : i = s.w
    · simp [hz, he]
    · have : i < s.w := by
        rw [hw] at he ⊢
        bv_omega
      simp [hz, this]
  · have hz : ¬ s.w + 1#12 = 0#12 := fun h => hw ((advanceW_wraps s.w).1 h)
    have hlt : i < s.w + 1#12 ↔ i < s.w ∨ i = s.w := by
      constructor
      · intro h
        by_cases he : i = s.w
        · exact .inr he
        · exact .inl (by bv_omega)
      · intro h
        rcases h with h | h
        · bv_omega
        · subst h
          bv_omega
    simp [hz, hlt, Bool.or_assoc]

/-! ### Enabling (10_state.md R20) -/

/-- A meaning answers a next state exactly in its phase. -/
theorem enabledIn_eq_next {s t u : State} {p : Phase} :
    s.enabledIn p t = .next u ↔ s.phase = p ∧ t = u := by
  unfold State.enabledIn
  split <;> simp_all

/-! ### The step operations -/

/-- The HEADER step (40_header_parser.md R85): a size error under SizeFirst, an illegal kind, a size error under the
kind, or the payload. -/
theorem headerStep_cases (h : RawHeader) (s : State) :
    (s.params.headerErrorOrder = .sizeFirst ∧ h.compressedSize < minSizeAny ∧
      headerStep h s = (s.storeHeader h).raise (.invalidSize h.compressedSize)) ∨
    (kindOf h.kindRaw = none ∧ headerStep h s = (s.storeHeader h).raise (.invalidCompType h.kindRaw)) ∨
    (∃ k, kindOf h.kindRaw = some k ∧ sizeTooSmall k h.compressedSize = true ∧
      headerStep h s = ((s.storeHeader h).setKind k).raise (.invalidSize h.compressedSize)) ∨
    (∃ k, kindOf h.kindRaw = some k ∧ sizeTooSmall k h.compressedSize = false ∧
      headerStep h s = ((s.storeHeader h).setKind k).enterPayload k) := by
  unfold headerStep
  split
  · rename_i hs
    exact .inl ⟨hs.1, hs.2, rfl⟩
  · refine .inr ?_
    cases hk : kindOf h.kindRaw with
    | none => exact .inl ⟨rfl, rfl⟩
    | some k =>
      refine .inr ?_
      cases hz : sizeTooSmall k h.compressedSize with
      | true => exact .inl ⟨k, rfl, hz, by simp [State.checkSize, hz]⟩
      | false => exact .inr ⟨k, rfl, hz, by simp [State.checkSize, hz]⟩

/-- What the HEADER step leaves alone, on success and on error (40_header_parser.md R84). -/
theorem headerStep_frame (h : RawHeader) (s : State) :
    (headerStep h s).params = s.params ∧ (headerStep h s).input = s.input ∧ (headerStep h s).dict = s.dict ∧
      (headerStep h s).wrapped = s.wrapped ∧ (headerStep h s).w = s.w ∧ (headerStep h s).r = s.r ∧
      (headerStep h s).ctrl = s.ctrl ∧ (headerStep h s).tok = s.tok ∧
      (headerStep h s).copyRemaining = s.copyRemaining ∧ (headerStep h s).bitIndex = s.bitIndex ∧
      (headerStep h s).out = s.out ∧ (headerStep h s).termReason = s.termReason ∧
      (headerStep h s).draws = s.draws ∧ (headerStep h s).cur = s.cur + 16 := by
  rcases headerStep_cases h s with ⟨_, _, he⟩ | ⟨_, he⟩ | ⟨k, _, _, he⟩ | ⟨k, _, _, he⟩
  · rw [he]
    simp
  · rw [he]
    simp
  · rw [he]
    simp
  · rw [he]
    cases k <;> simp [State.enterPayload]

/-- The REF step on a token (42_compressed_path.md R106): the sentinel, the strict error, or the start of a copy. -/
theorem tokenStep_cases (offset : DictIndex) (rawLen : Nibble) (s : State) :
    (offset = s.w ∧ tokenStep offset rawLen s = (s.storeToken offset rawLen).finish .sentinel) ∨
    (offset ≠ s.w ∧ s.strictViolation offset = true ∧
      tokenStep offset rawLen s = (s.storeToken offset rawLen).raise .invalidDictionaryReference) ∨
    (offset ≠ s.w ∧ s.strictViolation offset = false ∧
      tokenStep offset rawLen s = (s.storeToken offset rawLen).startCopy offset rawLen) := by
  unfold tokenStep State.isSentinel
  by_cases h : offset = s.w
  · exact .inl ⟨h, by simp [h]⟩
  · cases hv : s.strictViolation offset with
    | true => exact .inr (.inl ⟨h, rfl, by simp [h]⟩)
    | false => exact .inr (.inr ⟨h, rfl, by simp [h]⟩)

/-- The COPY step (42_compressed_path.md R110): the last byte of the copy, or one before it. -/
theorem copyStep_cases (s : State) :
    (s.copyRemaining ≤ 1 ∧ copyStep s = ({ copyByte s with copyRemaining := 0 } : State).toNextToken) ∨
    (1 < s.copyRemaining ∧ copyStep s = { copyByte s with copyRemaining := s.copyRemaining - 1 }) := by
  unfold copyStep
  by_cases h : s.copyRemaining ≤ 1
  · have h0 : s.copyRemaining - 1 = 0 := by omega
    exact .inl ⟨h, by simp [h0]⟩
  · have h0 : s.copyRemaining - 1 ≠ 0 := by omega
    exact .inr ⟨by omega, by simp [h0]⟩

section CopyByteFields
variable (s : State)

@[simp] theorem copyByte_params : (copyByte s).params = s.params := by simp [copyByte]
@[simp] theorem copyByte_input : (copyByte s).input = s.input := by simp [copyByte]
@[simp] theorem copyByte_phase : (copyByte s).phase = s.phase := by simp [copyByte]
@[simp] theorem copyByte_cur : (copyByte s).cur = s.cur := by simp [copyByte]
@[simp] theorem copyByte_bound : (copyByte s).bound = s.bound := by simp [copyByte]
@[simp] theorem copyByte_hdr : (copyByte s).hdr = s.hdr := by simp [copyByte]
@[simp] theorem copyByte_dict :
    (copyByte s).dict = s.dict.write s.w.toNat (s.dictRead s.r).1 := by simp [copyByte]
@[simp] theorem copyByte_wrapped :
    (copyByte s).wrapped = (s.wrapped || decide (s.w + 1#12 = 0#12)) := by simp [copyByte]
@[simp] theorem copyByte_w : (copyByte s).w = s.w + 1#12 := by simp [copyByte]
@[simp] theorem copyByte_r : (copyByte s).r = s.r + 1#12 := by simp [copyByte]
@[simp] theorem copyByte_ctrl : (copyByte s).ctrl = s.ctrl := by simp [copyByte]
@[simp] theorem copyByte_tok : (copyByte s).tok = s.tok := by simp [copyByte]
@[simp] theorem copyByte_copyRemaining : (copyByte s).copyRemaining = s.copyRemaining := by simp [copyByte]
@[simp] theorem copyByte_bitIndex : (copyByte s).bitIndex = s.bitIndex := by simp [copyByte]
@[simp] theorem copyByte_out : (copyByte s).out = s.out ++ [(s.dictRead s.r).1] := by simp [copyByte]
@[simp] theorem copyByte_result : (copyByte s).result = s.result := by simp [copyByte]
@[simp] theorem copyByte_termReason : (copyByte s).termReason = s.termReason := by simp [copyByte]
@[simp] theorem copyByte_draws : (copyByte s).draws = (s.dictRead s.r).2.draws := by simp [copyByte]

end CopyByteFields

end Sys2Proof.Machine
end

