-- ==== Sys2Proof/Laws/PerInstr.lean ====
section
/-!
SUPPORT. Statements for all instructions, one lemma per constructor.
-/

namespace Sys2Proof.Laws.EncodedLength

/-- An instruction's encoding takes the bytes its format takes (30_encoding.md R65). -/
def Statement (i : Instr) : Prop := i.encode.length = i.format.size

theorem hdrLzfu (compressedSize rawSize checksum : Word32) :
    Statement (.hdrLzfu compressedSize rawSize checksum) := rfl

theorem hdrMela (compressedSize rawSize checksum : Word32) :
    Statement (.hdrMela compressedSize rawSize checksum) := rfl

theorem raw (b : Byte) : Statement (.raw b) := rfl

theorem ctrl (c : Byte) : Statement (.ctrl c) := rfl

theorem lit (b : Byte) : Statement (.lit b) := rfl

theorem ref (offset : DictIndex) (rawLen : Nibble) : Statement (.ref offset rawLen) := rfl

theorem endRef (offset : DictIndex) (rawLen : Nibble) : Statement (.endRef offset rawLen) := rfl

end Sys2Proof.Laws.EncodedLength
end

