-- ==== Sys2Proof/Laws/Step.lean ====
section
/-!
SUPPORT. Everything a step can do, said once: the inversion lemma `step_cases`.
-/

namespace Sys2Proof.Machine

/-- The ways a step goes to a next state, one for each step rule and branch that has a rule of its own. -/
inductive StepCase (s : State) : State → Prop where
  /-- Fewer than 16 bytes (40_header_parser.md R86). -/
  | shortHeader (hp : s.phase = .header) (hn : s.input.length - s.cur < 16) : StepCase s (shortHeaderStep s)
  /-- A header, legal or not (40_header_parser.md R85). -/
  | header (hp : s.phase = .header) (hn : s.cur + 16 ≤ s.input.length) (h : RawHeader) (rest : List Byte)
      (hr : readHeader s.inputRest = some (h, rest)) : StepCase s (headerStep h s)
  /-- A payload byte passed through (41_uncompressed_path.md R95). -/
  | raw (hp : s.phase = .pass) (hn : s.cur < s.input.length) (b : Byte) (rest : List Byte)
      (hr : s.inputRest = b :: rest) : StepCase s ((s.emit b).advanceCur 1)
  /-- The end of the pass-through (41_uncompressed_path.md R95). -/
  | passEnd (hp : s.phase = .pass) (hn : s.input.length ≤ s.cur) : StepCase s (passEndStep s)
  /-- A control byte (42_compressed_path.md R102). -/
  | ctrl (hp : s.phase = .ctrl) (ha : s.inAvail 1 = true) (c : Byte) (rest : List Byte)
      (hr : s.inputRest = c :: rest) :
      StepCase s ({ s.advanceCur 1 with ctrl := c, bitIndex := 0 } : State).toNextToken
  /-- A literal (42_compressed_path.md R104). -/
  | lit (hp : s.phase = .lit) (ha : s.inAvail 1 = true) (b : Byte) (rest : List Byte)
      (hr : s.inputRest = b :: rest) :
      StepCase s ((s.advanceCur 1).produce b).advanceBit.toNextToken
  /-- A reference token (42_compressed_path.md R106). -/
  | token (hp : s.phase = .ref) (ha : s.inAvail 2 = true) (b0 b1 : Byte) (rest : List Byte)
      (hr : s.inputRest = b0 :: b1 :: rest) :
      StepCase s (tokenStep (tokenOffset (be16 b0 b1)) (tokenRawLen (be16 b0 b1)) s)
  /-- Soft termination of a CTRL or LIT step (42_compressed_path.md R112). -/
  | softByte (hp : s.phase = .ctrl ∨ s.phase = .lit) (ha : s.inAvail 1 = false) : StepCase s (softTerminateStep s)
  /-- Soft termination of a REF step (42_compressed_path.md R112). -/
  | softToken (hp : s.phase = .ref) (ha : s.inAvail 2 = false) : StepCase s (softTerminateStep s)
  /-- One byte of a copy (42_compressed_path.md R110). -/
  | copy (hp : s.phase = .copy) : StepCase s (copyStep s)

/-- The HEADER step on a decoded header instruction is the HEADER step on its fields. -/
theorem exec_headerInstr {h : RawHeader} {i : Instr} {s : State} (hi : headerInstr h = .ok i)
    (hp : s.phase = .header) : exec i s = .next (headerStep h s) := by
  obtain ⟨a, b, c, d⟩ := h
  unfold headerInstr at hi
  simp only at hi
  split at hi
  · rename_i hk; subst hk; cases hi
    simp [exec, execHdrLzfu, State.enabledIn, hp]
  · split at hi
    · rename_i hk; subst hk; cases hi
      simp [exec, execHdrMela, State.enabledIn, hp]
    · cases hi

/-- The REF step on a decoded token is the REF step on its fields, whichever row the token selects. -/
theorem exec_referenceInstr {w : DictIndex} {t : Token} {s : State} (hp : s.phase = .ref) :
    exec (referenceInstr w t) s = .next (tokenStep (tokenOffset t) (tokenRawLen t) s) := by
  unfold referenceInstr
  split
  · simp [exec, execEndRef, State.enabledIn, hp]
  · simp [exec, execRef, State.enabledIn, hp]

/-- What `readHeader` needs: 16 bytes. -/
theorem readHeader_isSome {bytes : List Byte} (h : 16 ≤ bytes.length) : ∃ hd rest, readHeader bytes = some (hd, rest) := by
  rcases bytes with _ | ⟨b0, _ | ⟨b1, _ | ⟨b2, _ | ⟨b3, _ | ⟨b4, _ | ⟨b5, _ | ⟨b6, _ | ⟨b7, bytes⟩⟩⟩⟩⟩⟩⟩⟩
  all_goals first
    | (simp at h; done)
    | skip
  rcases bytes with _ | ⟨b8, _ | ⟨b9, _ | ⟨b10, _ | ⟨b11, _ | ⟨b12, _ | ⟨b13, _ | ⟨b14, _ | ⟨b15, rest⟩⟩⟩⟩⟩⟩⟩⟩
  all_goals first
    | (simp at h; done)
    | exact ⟨_, _, rfl⟩

theorem inputRest_length (s : State) : s.inputRest.length = s.input.length - s.cur := by
  simp [State.inputRest]

/-- Everything a step can do. -/
theorem step_cases {s t : State} (h : step s = .next t) : StepCase s t := by
  unfold step State.fetch at h
  cases hp : s.phase with
  | header =>
    simp only [hp] at h
    by_cases hn : s.input.length - s.cur < 16
    · simp only [hn, if_true] at h
      cases h
      exact .shortHeader hp hn
    · simp only [hn, if_false] at h
      obtain ⟨hd, rest, hr⟩ := readHeader_isSome (bytes := s.inputRest) (by rw [inputRest_length]; omega)
      have hc : s.cur + 16 ≤ s.input.length := by omega
      have ht : t = headerStep hd s := by
        simp only [State.fetchUnit, decode, decodeHeader, hr] at h
        cases hi : headerInstr hd with
        | ok i =>
          simp only [hi, exec_headerInstr hi hp] at h
          cases h; rfl
        | error e =>
          simp only [hi] at h
          unfold headerInstr at hi
          split at hi
          · cases hi
          · split at hi
            · cases hi
            · cases hi; cases h; rfl
      subst ht
      exact .header hp hc hd rest hr
  | pass =>
    simp only [hp] at h
    by_cases hn : s.cur < s.input.length
    · simp only [hn, if_true, State.fetchUnit, decode] at h
      cases hr : s.inputRest with
      | nil => have := inputRest_length s; rw [hr] at this; simp at this; omega
      | cons b rest =>
        simp only [hr, decodeByte, exec, execRaw, State.enabledIn, hp, if_true] at h
        cases h
        exact .raw hp hn b rest hr
    · simp only [hn, if_false] at h
      cases h
      exact .passEnd hp (by omega)
  | ctrl =>
    simp only [hp, State.fetchBounded, Format.size] at h
    cases ha : s.inAvail 1 with
    | true =>
      simp only [ha, if_true, State.fetchUnit, decode] at h
      cases hr : s.inputRest with
      | nil => simp [hr, decodeByte] at h
      | cons c rest =>
        simp only [hr, decodeByte, exec, execCtrl, State.enabledIn, hp, if_true] at h
        cases h
        exact .ctrl hp ha c rest hr
    | false =>
      simp only [ha, Bool.false_eq_true, if_false] at h
      cases h
      exact .softByte (.inl hp) ha
  | lit =>
    simp only [hp, State.fetchBounded, Format.size] at h
    cases ha : s.inAvail 1 with
    | true =>
      simp only [ha, if_true, State.fetchUnit, decode] at h
      cases hr : s.inputRest with
      | nil => simp [hr, decodeByte] at h
      | cons b rest =>
        simp only [hr, decodeByte, exec, execLit, State.enabledIn, hp, if_true] at h
        cases h
        exact .lit hp ha b rest hr
    | false =>
      simp only [ha, Bool.false_eq_true, if_false] at h
      cases h
      exact .softByte (.inr hp) ha
  | ref =>
    simp only [hp, State.fetchBounded, Format.size] at h
    cases ha : s.inAvail 2 with
    | true =>
      simp only [ha, if_true, State.fetchUnit, decode] at h
      rcases hr : s.inputRest with _ | ⟨b0, _ | ⟨b1, rest⟩⟩
      · simp [hr, decodeReference] at h
      · simp [hr, decodeReference] at h
      · simp only [hr, decodeReference, exec_referenceInstr hp] at h
        cases h
        exact .token hp ha b0 b1 rest hr
    | false =>
      simp only [ha, Bool.false_eq_true, if_false] at h
      cases h
      exact .softToken hp ha
  | copy =>
    simp only [hp] at h
    cases h
    exact .copy hp
  | done => simp [hp] at h

end Sys2Proof.Machine
end

