-- ==== Sys2Proof/Tests/Slice0.lean ====
section
/-!
SUPPORT. Tests whose expected results come from 95_test_vectors.md and the rules' own examples, ill-formed terms that
the checks refuse, and for every statement with hypotheses a state and operands that meet them.
-/

namespace Sys2Proof.Tests

open Sys2Proof.Machine

/-! ### Helpers -/

/-- A 16-byte header with a small declared size, `rawSize` 0 and checksum 0 (95_test_vectors.md, `H(cs, 0, kind, 0)`). -/
def hdr (size : Byte) (k0 k1 k2 k3 : Byte) : List Byte :=
  [size, 0#8, 0#8, 0#8, 0#8, 0#8, 0#8, 0#8, k0, k1, k2, k3, 0#8, 0#8, 0#8, 0#8]

/-- `H(cs, 0, LZFu, 0)`. -/
def lzfu (size : Byte) : List Byte := hdr size 0x4C#8 0x5A#8 0x46#8 0x75#8

/-- `H(cs, 0, MELA, 0)`. -/
def mela (size : Byte) : List Byte := hdr size 0x4D#8 0x45#8 0x4C#8 0x41#8

/-- A state in phase `p` at the first payload byte of a Compressed input with payload `payload`. -/
def at16 (p : Phase) (payload : List Byte) : State :=
  { State.start Params.default (lzfu 0x20#8 ++ payload) with
    phase := p
    cur := 16
    bound := 16 + payload.length
    hdr := ⟨0x20#32, 0#32, 0x75465A4C#32, some .compressed, 0#32⟩ }

/-- The default parameters with STRICT_REFS. -/
def strict : Params := { Params.default with strictRefs := true }

/-- The default parameters with SizeFirst. -/
def sizeFirst : Params := { Params.default with headerErrorOrder := .sizeFirst }

/-- The result after one step from the start. -/
def resultAfterOne (p : Params) (input : List Byte) : Option (Option RunResult) :=
  (nextState (runFrom p input 1)).map (·.result)

/-! ### Well-formedness: an ill-formed term for each check, which the check refuses -/

theorem test_wf_lzfu_size : (Instr.hdrLzfu 0x0F#32 0#32 0#32).wellFormed 207#12 = false := by decide
theorem test_wf_mela_size : (Instr.hdrMela 0x0B#32 0#32 0#32).wellFormed 207#12 = false := by decide
theorem test_wf_ref_at_w : (Instr.ref 207#12 0#4).wellFormed 207#12 = false := by decide
theorem test_wf_end_off_w : (Instr.endRef 206#12 0#4).wellFormed 207#12 = false := by decide
theorem test_wf_accepts :
    (Instr.hdrLzfu 0x10#32 0#32 0#32).wellFormed 207#12 = true ∧
    (Instr.hdrMela 0x0C#32 0#32 0#32).wellFormed 207#12 = true ∧
    (Instr.ref 206#12 0#4).wellFormed 207#12 = true ∧
    (Instr.endRef 207#12 0#4).wellFormed 207#12 = true := by decide

/-! ### Decoding: words written out from the spec -/

/-- 40_header_parser.md R85, example. -/
theorem test_decode_lzfu :
    decode .header 207#12 [0x2D#8, 0x00#8, 0x00#8, 0x00#8, 0x2B#8, 0x00#8, 0x00#8, 0x00#8,
      0x4C#8, 0x5A#8, 0x46#8, 0x75#8, 0xF1#8, 0xC5#8, 0xC7#8, 0xA7#8] =
      .ok (.hdrLzfu 0x2D#32 0x2B#32 0xA7C7C5F1#32, []) := rfl

/-- 95_test_vectors.md, the example of `H(0x11, 5, MELA, 0)`, with a payload byte left over. -/
theorem test_decode_mela :
    decode .header 207#12 [0x11#8, 0x00#8, 0x00#8, 0x00#8, 0x05#8, 0x00#8, 0x00#8, 0x00#8,
      0x4D#8, 0x45#8, 0x4C#8, 0x41#8, 0x00#8, 0x00#8, 0x00#8, 0x00#8, 0x48#8] =
      .ok (.hdrMela 0x11#32 5#32 0#32, [0x48#8]) := rfl

/-- 41_uncompressed_path.md R95, example. -/
theorem test_decode_raw : decode .raw 207#12 [0b01001000#8] = .ok (.raw 0x48#8, []) := rfl

/-- 42_compressed_path.md R102, example: bits 0 and 1 set. -/
theorem test_decode_ctrl : decode .control 207#12 [0b00000011#8] = .ok (.ctrl 0x03#8, []) := rfl

/-- 42_compressed_path.md R104, example. -/
theorem test_decode_lit : decode .literal 207#12 [0b01010100#8] = .ok (.lit 0x54#8, []) := rfl

/-- 95_test_vectors.md T-5: offset 0001 0010 0011, raw length 0100. -/
theorem test_decode_ref : decode .reference 207#12 [0b00010010#8, 0b00110100#8] = .ok (.ref 291#12 4#4, []) := rfl

/-- 95_test_vectors.md T-6. -/
theorem test_decode_ref_2748 : decode .reference 207#12 [0xAB#8, 0xCD#8] = .ok (.ref 2748#12 13#4, []) := rfl

/-- 42_compressed_path.md R109: token 0x0CFF at w = 207 is END. -/
theorem test_decode_end : decode .reference 207#12 [0b00001100#8, 0b11111111#8] = .ok (.endRef 207#12 15#4, []) := rfl

/-- 95_test_vectors.md H-12: the reversed magic is illegal. -/
theorem test_decode_reversed_magic :
    decode .header 207#12 (hdr 0x10#8 0x75#8 0x46#8 0x5A#8 0x4C#8) =
      .error (.illegalKind ⟨0x10#32, 0#32, 0x4C5A4675#32, 0#32⟩) := rfl

/-- 30_encoding.md R83. -/
theorem test_encode_ref : (Instr.ref 1#12 3#4).encode = [0x00#8, 0x13#8] := by decide

/-- 20_memory.md R47. -/
theorem test_encode_header_kind :
    ((Instr.hdrLzfu 0x2D#32 0x2B#32 0xA7C7C5F1#32).encode.drop 8).take 4 = [0x4C#8, 0x5A#8, 0x46#8, 0x75#8] := by
  decide

/-- The table's word of a token is the number 30_encoding.md R74 numbers, that of a header its little-endian words. -/
theorem test_table_words :
    decodeTableWord 16 0x1234 = some (.ref 291#12 4#4) ∧ decodeTableWord 16 0x0CF0 = some (.endRef 207#12 0#4) ∧
    decodeTableWord 8 0x03 = some (.ctrl 3#8) ∧
    decodeTableWord 128 0x75465A4C0000000000000010 = some (.hdrLzfu 0x10#32 0#32 0#32) := by decide

/-- A unit placed at the cursor of the reset state is the one the next step runs. -/
theorem test_placed_unit_runs :
    (nextState (step (State.reset.withFetchWord 16 0x0013))).map (fun t => (t.phase, t.r, t.copyRemaining)) =
      some (.copy, 1#12, 5) := by decide

/-! ### One step each -/

/-- 95_test_vectors.md H-14. -/
theorem test_header_lzfu :
    (nextState (runFrom Params.default
        [0x2D#8, 0x00#8, 0x00#8, 0x00#8, 0x2B#8, 0x00#8, 0x00#8, 0x00#8,
          0x4C#8, 0x5A#8, 0x46#8, 0x75#8, 0xF1#8, 0xC5#8, 0xC7#8, 0xA7#8] 1)).map
      (fun t => (t.hdr, t.phase, t.cur, t.bound)) =
    some (⟨0x2D#32, 0x2B#32, 0x75465A4C#32, some .compressed, 0xA7C7C5F1#32⟩, .ctrl, 16, 16) := by decide

/-- 95_test_vectors.md H-6. -/
theorem test_header_lzfu_small :
    resultAfterOne Params.default (lzfu 0x0F#8) = some (some (.err (.invalidSize 0x0F#32))) := by decide

/-- 95_test_vectors.md H-3. -/
theorem test_header_mela :
    (nextState (runFrom Params.default (mela 0x0C#8) 1)).map (·.phase) = some .pass := by decide

/-- 95_test_vectors.md H-4. -/
theorem test_header_mela_small :
    resultAfterOne Params.default (mela 0x0B#8) = some (some (.err (.invalidSize 0x0B#32))) := by decide

/-- 95_test_vectors.md H-8 to H-10: the two orders of the checks. -/
theorem test_header_error_order :
    resultAfterOne Params.default (hdr 0#8 0#8 0#8 0#8 0#8) = some (some (.err (.invalidCompType 0#32))) ∧
    resultAfterOne sizeFirst (hdr 0#8 0#8 0#8 0#8 0#8) = some (some (.err (.invalidSize 0#32))) ∧
    resultAfterOne sizeFirst (hdr 0x0C#8 0x78#8 0x56#8 0x34#8 0x12#8) =
      some (some (.err (.invalidCompType 0x12345678#32))) := by decide

/-- 95_test_vectors.md H-13: `bound` under DeclaredSize, with the largest declared size. -/
theorem test_declared_bound_wide :
    loopBoundValue .declaredSize 18 0xFFFFFFFF#32 = 18 ∧ loopBoundValue .declaredSize 23 0x11#32 = 21 := by decide

/-- 41_uncompressed_path.md R95, example. -/
theorem test_raw_step :
    (nextState (step { at16 .pass [0x48#8] with cur := 16 })).map (fun t => (t.out, t.cur)) =
      some ([0x48#8], 17) := by decide

/-- 42_compressed_path.md R102, example. -/
theorem test_ctrl_step :
    (nextState (step (at16 .ctrl [0x03#8]))).map (fun t => (t.ctrl, t.bitIndex, t.phase, t.cur)) =
      some (0x03#8, 0, .ref, 17) := by decide

/-- 95_test_vectors.md L-5: a literal at the top of the dictionary wraps. -/
theorem test_lit_wraps :
    (nextState (step { at16 .lit [0x5A#8] with w := 4095#12 })).map
      (fun t => (t.dict.read 4095, t.w, t.wrapped, t.out)) =
      some (some 0x5A#8, 0#12, true, [0x5A#8]) := by decide

/-- 42_compressed_path.md R105: the eighth literal of a group sends the next step to CTRL. -/
theorem test_lit_eighth :
    (nextState (step { at16 .lit [0x5A#8] with bitIndex := 7 })).map (·.phase) = some .ctrl := by decide

/-- 42_compressed_path.md R106, example. -/
theorem test_ref_step :
    (nextState (step (at16 .ref [0x00#8, 0x0A#8]))).map (fun t => (t.tok, t.r, t.copyRemaining, t.phase, t.cur)) =
      some (0x000A#16, 0#12, 12, .copy, 18) := by decide

/-- 95_test_vectors.md X-2. -/
theorem test_ref_strict :
    (nextState (step { at16 .ref [0x12#8, 0xC1#8] with params := strict })).map (fun t => (t.result, t.phase)) =
      some (some (.err .invalidDictionaryReference), .done) := by decide

/-- 95_test_vectors.md S-13: END is tested before the strict check. -/
theorem test_end_before_strict :
    (nextState (step { at16 .ref [0x0C#8, 0xF0#8] with params := strict })).map (fun t => (t.result, t.termReason)) =
      some (some (.ok []), .sentinel) := by decide

/-- 95_test_vectors.md S-11: the length nibble of END is ignored. -/
theorem test_end_nibble :
    (nextState (step (at16 .ref [0x0C#8, 0xFF#8]))).map (fun t => (t.result, t.cur, t.copyRemaining)) =
      some (some (.ok []), 18, 0) := by decide

/-- 42_compressed_path.md R110, example. -/
theorem test_copy_step :
    (nextState (step { at16 .copy [] with copyRemaining := 2 })).map
      (fun t => (t.out, t.dict.read 207, t.r, t.w, t.copyRemaining)) =
      some ([0x7B#8], some 0x7B#8, 1#12, 208#12, 1) := by decide

/-- 95_test_vectors.md K-8, its first byte: the fill value of a never-written cell. -/
theorem test_copy_fill :
    (nextState (step { at16 .copy [] with
        params := { Params.default with dictFill := some 0#8 }, r := 300#12, copyRemaining := 3 })).map (·.out) =
      some [0#8] := by decide

/-- 95_test_vectors.md E-2: a token with one byte left consumes nothing. -/
theorem test_soft_token :
    (nextState (step (at16 .ref [0x0C#8]))).map (fun t => (t.result, t.termReason, t.cur)) =
      some (some (.ok []), .endOfInput, 16) := by decide

/-- A write of what an unlisted cell holds lists nothing (log 4). -/
theorem test_memory_canonical :
    Memory.write [] 0 0x7B#8 = [] ∧ Memory.write (Memory.write [] 0 0x41#8) 0 0x7B#8 = [] ∧
    Memory.write (Memory.write [] 300 0#8) 299 1#8 = [(299, 1#8), (300, 0#8)] := by decide

/-- 60_exceptions.md R118. -/
theorem test_error_codes :
    (RunResult.ok []).code = 0 ∧ (RunError.invalidSize 0x0B#32).code = 1 ∧ (RunError.invalidCompType 0#32).code = 2 ∧
    RunError.invalidDictionaryReference.code = 3 ∧ RunError.corrupted.code = 4 ∧
    (RunError.invalidCompType 0x4C5A4675#32).value = some 0x4C5A4675#32 := by decide

/-! ### The notation (95_test_vectors.md section 3) -/

/-- P2's payload. -/
theorem test_assemble_p2 :
    assembleTokens [.ref 1 5, .lit 0x21#8, .sentinel] = .ok [0x05#8, 0x00#8, 0x13#8, 0x21#8, 0x0D#8, 0x50#8] := rfl

/-- P3's payload. -/
theorem test_assemble_p3 :
    assembleTokens [.run 0x41#8 18, .sentinel] = .ok [0x06#8, 0x41#8, 0x0C#8, 0xFF#8, 0x0E#8, 0x10#8] := rfl

/-- P1's header, with `csize=auto`. -/
theorem test_assemble_p1 :
    assemble magicCompressed .auto 4#32 0#32 [0x00#8, 0x54#8, 0x65#8, 0x73#8, 0x74#8] =
      .ok [0x11#8, 0x00#8, 0x00#8, 0x00#8, 0x04#8, 0x00#8, 0x00#8, 0x00#8, 0x4C#8, 0x5A#8, 0x46#8, 0x75#8,
        0x00#8, 0x00#8, 0x00#8, 0x00#8, 0x00#8, 0x54#8, 0x65#8, 0x73#8, 0x74#8] := rfl

/-- 30_encoding.md R81: `csize=auto` is 12 more than the payload's length, up to the largest u32. -/
theorem test_auto_size : autoSize 5 = 0x11#32 ∧ autoSize 0xFFFFFFF3 = 0xFFFFFFFF#32 := by decide

/-- 30_encoding.md R82: `END` expands to `REF W, 2`, so the two spellings give the same bytes, of later lines too (which
is the model's choice, log 23). -/
theorem test_end_is_ref_at_w :
    assembleTokens [.lit 0x41#8, .ref 208 2, .sentinel] = assembleTokens [.lit 0x41#8, .sentinel, .sentinel] := rfl

/-- 30_encoding.md R81, R82: what the assembler refuses. -/
theorem test_assembler_refuses :
    assembleTokens [.ref 4096 2] = .error .refOperands ∧ assembleTokens [.ref 0 18] = .error .refOperands ∧
    assembleTokens [.run 0x41#8 2] = .error .runOperands ∧
    assemble magicCompressed .auto 0#32 0#32 [0x00#8, 0x41#8, 0x42#8] = .error .autoSizeBelowMinimum :=
  ⟨rfl, rfl, rfl, rfl⟩

/-! ### Witnesses: what meets the hypotheses of each statement -/

theorem witness_DecodeOfEncode :
    (Instr.ref 0#12 15#4).selectedAt 207#12 = true ∧ (Instr.endRef 207#12 15#4).selectedAt 207#12 = true := by decide

theorem witness_EncodeOfDecode :
    ∃ i rest, decode .reference 207#12 [0xFF#8, 0xFF#8, 0x01#8] = .ok (i, rest) := ⟨_, _, rfl⟩

/-- Both sides of each clause at its boundary. -/
theorem witness_DecodeRefusesOnlyIllegal :
    (∃ e, decode .reference 207#12 [0x0C#8] = .error e) ∧ (∃ e, decode .header 207#12 ((lzfu 0x10#8).take 15) = .error e) ∧
    (∃ e, decode .header 207#12 (hdr 0x10#8 0#8 0#8 0#8 0#8) = .error e) ∧
    (∃ i rest, decode .header 207#12 (lzfu 0#8) = .ok (i, rest)) :=
  ⟨⟨_, rfl⟩, ⟨_, rfl⟩, ⟨_, rfl⟩, ⟨_, _, rfl⟩⟩

theorem witness_HeaderFieldsLittleEndian : 16 ≤ (lzfu 0x10#8).length := by decide

theorem witness_ReferenceEncodingBytes : 4095 < 4096 ∧ 2 ≤ 2 ∧ 2 ≤ 17 ∧ 2 ≤ 17 ∧ 17 ≤ 17 := by decide

/-- Fifteen and sixteen bytes. -/
theorem witness_HeaderStepRule :
    (State.start Params.default ((lzfu 0x10#8).take 15)).phase = .header ∧
    ((lzfu 0x10#8).take 15).length - 0 < 16 ∧ 16 ≤ (lzfu 0x10#8).length - 0 := by decide

/-- The last payload byte, and the end. -/
theorem witness_PassStepRule :
    (at16 .pass [0x41#8]).phase = .pass ∧ (at16 .pass [0x41#8]).cur < (at16 .pass [0x41#8]).input.length ∧
    ¬ (at16 .pass []).cur < (at16 .pass []).input.length := by decide

/-- The last readable byte, and none. -/
theorem witness_ControlStepRule :
    (at16 .ctrl [0x00#8]).phase = .ctrl ∧ (at16 .ctrl [0x00#8]).bound ≤ (at16 .ctrl [0x00#8]).input.length ∧
    (at16 .ctrl [0x00#8]).cur + 1 ≤ (at16 .ctrl [0x00#8]).bound ∧
    (at16 .ctrl []).bound ≤ (at16 .ctrl []).input.length ∧ ¬ (at16 .ctrl []).cur + 1 ≤ (at16 .ctrl []).bound := by decide

theorem witness_LiteralStepRule :
    (at16 .lit [0x00#8]).phase = .lit ∧ (at16 .lit [0x00#8]).bound ≤ (at16 .lit [0x00#8]).input.length ∧
    (at16 .lit [0x00#8]).cur + 1 ≤ (at16 .lit [0x00#8]).bound ∧
    (at16 .lit []).bound ≤ (at16 .lit []).input.length ∧ ¬ (at16 .lit []).cur + 1 ≤ (at16 .lit []).bound := by decide

/-- Two readable bytes, and one. -/
theorem witness_ReferenceStepRule :
    (at16 .ref [0x0C#8, 0xF0#8]).phase = .ref ∧
    (at16 .ref [0x0C#8, 0xF0#8]).bound ≤ (at16 .ref [0x0C#8, 0xF0#8]).input.length ∧
    (at16 .ref [0x0C#8, 0xF0#8]).cur + 2 ≤ (at16 .ref [0x0C#8, 0xF0#8]).bound ∧
    (at16 .ref [0x0C#8]).bound ≤ (at16 .ref [0x0C#8]).input.length ∧
    ¬ (at16 .ref [0x0C#8]).cur + 2 ≤ (at16 .ref [0x0C#8]).bound := by decide

/-- A copy from the last written cell, and one from the first never-written cell. -/
def copyState (r : DictIndex) : State := { at16 .copy [] with r := r, copyRemaining := 1, bitIndex := 8 }

theorem witness_CopyStepRule :
    (copyState 206#12).phase = .copy ∧ 1 ≤ (copyState 206#12).copyRemaining ∧
    ((copyState 206#12).wrapped = true ∨ (copyState 206#12).r.toNat < (copyState 206#12).w.toNat →
      ((copyState 206#12).dict.read (copyState 206#12).r.toNat).isSome = true) ∧
    ¬ ((copyState 208#12).wrapped = true ∨ (copyState 208#12).r.toNat < (copyState 208#12).w.toNat) := by decide

theorem witness_HdrLzfuCompletes : State.reset.phase = .header ∧ 0x10#32 ≤ 0x10#32 := by decide

theorem witness_HdrMelaCompletes : State.reset.phase = .header ∧ 0x0C#32 ≤ 0x0C#32 := by decide

theorem witness_RawCompletes : (at16 .pass [0x41#8]).phase = .pass := by decide

theorem witness_CtrlCompletes : (at16 .ctrl [0x41#8]).phase = .ctrl := by decide

theorem witness_LitCompletes : (at16 .lit [0x41#8]).phase = .lit := by decide

/-- One offset for each way to pass the strict check. -/
theorem witness_RefCompletes :
    (at16 .ref []).phase = .ref ∧ (4095#12 ≠ (at16 .ref []).w ∧ (at16 .ref []).params.strictRefs = false) ∧
    (206#12 ≠ (at16 .ref []).w ∧ (206#12).toNat ≤ (at16 .ref []).w.toNat) ∧
    (208#12 ≠ (at16 .ref []).w ∧ ({ at16 .ref [] with wrapped := true } : State).wrapped = true) := by decide

theorem witness_EndCompletes : (at16 .ref []).phase = .ref := by decide

/-- The largest sizes that raise, and the smallest that do not. -/
theorem witness_SmallSizeRaises :
    State.reset.phase = .header ∧ (0x0F#32).toNat < 0x10 ∧ (0x0B#32).toNat < 0x0C ∧ 0x10 ≤ (0x10#32).toNat ∧
    0x0C ≤ (0x0C#32).toNat := by decide

theorem witness_ShortInputRaises :
    State.reset.phase = .header ∧ State.reset.input.length - State.reset.cur < 16 := by decide

/-- An illegal kind with a declared size below and at 0x0C. -/
theorem witness_IllegalKindRaises :
    readHeader ((hdr 0x0B#8 0#8 0#8 0#8 0#8).drop 0) = some (⟨0x0B#32, 0#32, 0#32, 0#32⟩, []) ∧
    readHeader ((hdr 0x0C#8 0#8 0#8 0#8 0#8).drop 0) = some (⟨0x0C#32, 0#32, 0#32, 0#32⟩, []) ∧
    (0#32 : Word32) ≠ 0x75465A4C#32 ∧ (0#32 : Word32) ≠ 0x414C454D#32 := by decide

theorem witness_StrictReferenceRaises :
    let s : State := { at16 .ref [] with params := strict }
    s.phase = .ref ∧ s.params.strictRefs = true ∧ s.wrapped = false ∧ s.w.toNat < (208#12).toNat := by decide

theorem witness_StrictErrorOnlyUnderStrictRefs :
    (nextState (step { at16 .ref [0x12#8, 0xC1#8] with params := strict })).map (·.result) =
      some (some (.err .invalidDictionaryReference)) ∧
    (at16 .ref [0x12#8, 0xC1#8]).result ≠ some (.err .invalidDictionaryReference) := by decide

/-- No run gives a state with this result; a state that holds it and takes a step does. -/
theorem witness_CorruptedNeverRaised :
    (nextState (step { at16 .lit [0x41#8] with result := some (.err .corrupted) })).map (·.result) =
      some (some (.err .corrupted)) := by decide

theorem witness_ErrorsArePrecise :
    (nextState (step (State.start Params.default (lzfu 0x0F#8)))).map (·.result) =
      some (some (.err (.invalidSize 0x0F#32))) ∧ (State.start Params.default (lzfu 0x0F#8)).result = none := by decide

/-- Each of the three points, with the last byte missing. -/
theorem witness_SoftTermination :
    ((at16 .ctrl []).phase = .ctrl ∧ (at16 .ctrl []).bound < (at16 .ctrl []).cur + 1) ∧
    ((at16 .lit []).phase = .lit ∧ (at16 .lit []).bound < (at16 .lit []).cur + 1) ∧
    ((at16 .ref [0x0C#8]).phase = .ref ∧ (at16 .ref [0x0C#8]).bound < (at16 .ref [0x0C#8]).cur + 2) ∧
    (nextState (step (at16 .lit []))).map (fun t => (t.result, t.termReason)) =
      some (some (.ok []), .endOfInput) ∧ (at16 .lit []).result = none := by decide

/-- Each of the three ends. -/
theorem witness_CompressedEndsOnlyThreeWays :
    (at16 .ref []).phase.inCompressedPath = true ∧
    (nextState (step (at16 .ref [0x0C#8, 0xF0#8]))).map (·.phase) = some .done ∧
    (nextState (step (at16 .ctrl []))).map (·.phase) = some .done ∧
    (nextState (step { at16 .ref [0x12#8, 0xC1#8] with params := strict })).map (·.phase) = some .done := by decide

theorem witness_AfterDoneNothingRuns : (at16 .done []).phase = .done := by decide

theorem witness_InstructionsRunInTheirPhaseOnly :
    (at16 .lit []).phase = (Instr.lit 0#8).phase ∧ (at16 .copy []).phase ≠ (Instr.lit 0#8).phase := by decide

/-- A unit of each format, available to its last byte. -/
theorem witness_StepRunsDecodedInstruction :
    (∃ i rest, (State.start Params.default (lzfu 0x10#8)).cur + 16 ≤ (lzfu 0x10#8).length ∧
      decode .header 207#12 ((lzfu 0x10#8).drop 0) = .ok (i, rest)) ∧
    (∃ i rest, decode .raw 207#12 ((at16 .pass [0x41#8]).input.drop 16) = .ok (i, rest)) ∧
    (∃ i rest, (at16 .ctrl [0x41#8]).cur + 1 ≤ (at16 .ctrl [0x41#8]).bound ∧
      decode .control 207#12 ((at16 .ctrl [0x41#8]).input.drop 16) = .ok (i, rest)) ∧
    (∃ i rest, (at16 .lit [0x41#8]).cur + 1 ≤ (at16 .lit [0x41#8]).bound ∧
      decode .literal 207#12 ((at16 .lit [0x41#8]).input.drop 16) = .ok (i, rest)) ∧
    (∃ i rest, (at16 .ref [0x0C#8, 0xF0#8]).cur + 2 ≤ (at16 .ref [0x0C#8, 0xF0#8]).bound ∧
      decode .reference 207#12 ((at16 .ref [0x0C#8, 0xF0#8]).input.drop 16) = .ok (i, rest)) :=
  ⟨⟨_, _, by decide, rfl⟩, ⟨_, _, rfl⟩, ⟨_, _, by decide, rfl⟩, ⟨_, _, by decide, rfl⟩, ⟨_, _, by decide, rfl⟩⟩

/-- A state of a run, before its first literal, that meets the invariant. -/
theorem witness_literal_inv : (at16 .lit [0x41#8]).Inv where
  dictCanonical := Memory.wf_nil
  writtenHasValue i := by
    simp [at16, State.start, Memory.initial_isSome, State.written, BitVec.lt_def]
  cursorInInput := by decide
  boundInInput := by decide
  bitIndexRange := by decide
  headerFirst := by decide
  passOutput := by decide
  compressedCursor := by decide
  litBit := by decide
  refBit := by decide
  copyRange := by decide
  copyIdle := by decide
  resultAtDone := by decide
  okDeliversOut := by simp [at16, State.start]
  neverCorrupted := by decide
  strictOnly := by decide

theorem witness_StepEnabledUntilDone : (at16 .lit [0x41#8]).Inv ∧ (at16 .lit [0x41#8]).phase ≠ .done :=
  ⟨witness_literal_inv, by decide⟩

theorem witness_StepKeepsInvariant : (at16 .lit [0x41#8]).Inv ∧ ∃ t, step (at16 .lit [0x41#8]) = .next t :=
  ⟨witness_literal_inv, _, rfl⟩

theorem witness_HeaderInstructionsFrame :
    (Instr.hdrMela 0x0C#32 0#32 0#32).format = .header ∧
    ∃ t, exec (.hdrMela 0x0C#32 0#32 0#32) State.reset = .next t := ⟨rfl, _, rfl⟩

theorem witness_RawAndCtrlFrame :
    ((Instr.raw 0x41#8).format = .raw ∧ ∃ t, exec (.raw 0x41#8) (at16 .pass []) = .next t) ∧
    ((Instr.ctrl 0x41#8).format = .control ∧ ∃ t, exec (.ctrl 0x41#8) (at16 .ctrl []) = .next t) :=
  ⟨⟨rfl, _, rfl⟩, rfl, _, rfl⟩

theorem witness_LitFrame : ∃ t, exec (.lit 0x41#8) (at16 .lit []) = .next t := ⟨_, rfl⟩

/-- A reference that starts a copy, and one that ends the run. -/
theorem witness_ReferenceInstructionsFrame :
    (∃ t, exec (.ref 0#12 0#4) (at16 .ref []) = .next t ∧ t.phase = .copy) ∧
    (∃ t, exec (.endRef 207#12 0#4) (at16 .ref []) = .next t ∧ t.phase = .done) :=
  ⟨⟨_, rfl, rfl⟩, _, rfl, rfl⟩

/-- One step serves every statement whose only premise is that a step goes on: RunParametersNeverWritten,
CursorAdvances, OutputIsAppendOnly, WritePositionFollowsWrites. -/
theorem witness_step_goes_on :
    (∃ t, step (at16 .lit [0x41#8]) = .next t ∧ t.out = [0x41#8]) ∧ ∃ t, step (at16 .ctrl []) = .next t ∧ t.out = [] :=
  ⟨⟨_, rfl, rfl⟩, _, rfl, rfl⟩

/-- Both places. -/
theorem witness_DrawsHappenAtTwoPlaces :
    (nextState (step State.reset)).map (·.draws) = some 1 ∧
    (nextState (step (copyState 208#12))).map (·.draws) = some 1 ∧
    (nextState (step (copyState 206#12))).map (·.draws) = some 0 := by decide

theorem witness_PassThroughDeliversPayload :
    readHeader (mela 0x0C#8 ++ [0x48#8, 0x69#8]) = some (⟨0x0C#32, 0#32, 0x414C454D#32, 0#32⟩, [0x48#8, 0x69#8]) ∧
    0x0C#32 ≤ 0x0C#32 := by decide

/-- 95_test_vectors.md K-4 cut short: after `LIT 'A'`, a copy of three from one cell back. -/
def overlapState : State := { at16 .ref [] with dict := [(207, 0x41#8)], w := 208#12, out := [0x41#8] }

theorem witness_CopyRepeatsPeriodically :
    overlapState.phase = .ref ∧ 207#12 ≠ overlapState.w ∧
    (∃ t0, exec (.ref 207#12 1#4) overlapState = .next t0 ∧ t0.phase = .copy) ∧
    (overlapState.w - 207#12).toNat = 1 ∧ overlapState.cellValue (207#12 + BitVec.ofNat 12 0) = some 0x41#8 :=
  ⟨by decide, by decide, ⟨_, rfl, rfl⟩, by decide, by decide⟩

/-- A group of eight literals and the end of the group (95_test_vectors.md L-3). -/
def groupState : State := at16 .ctrl [0x00#8, 0x31#8, 0x32#8, 0x33#8, 0x34#8, 0x35#8, 0x36#8, 0x37#8, 0x38#8]

theorem witness_GroupTakesItsBytes :
    groupState.phase = .ctrl ∧
    (nextState (Host.Core.run core 9 groupState)).map (fun t => (t.phase, t.cur)) = some (.ctrl, 25) ∧
    ∀ j, j < 9 → 0 < j → (nextState (Host.Core.run core j groupState)).map (·.phase) ≠ some .ctrl := by decide

/-- A group that a sentinel ends at its third token (95_test_vectors.md S-12): 1 + 1 + 1 + 2 bytes. -/
theorem witness_GroupTakesItsBytes_sentinel :
    (nextState (Host.Core.run core 4 (at16 .ctrl [0x04#8, 0x41#8, 0x42#8, 0x0D#8, 0x10#8, 0x43#8]))).map
      (fun t => (t.phase, t.result, t.termReason, t.cur, t.bitIndex)) =
      some (.done, some (.ok [0x41#8, 0x42#8]), .sentinel, 21, 2) := by decide

theorem witness_OutputLengthBounds :
    (∃ t, runFrom Params.default (lzfu 0x10#8) 1 = .next t ∧ t.hdr.kind = some .compressed) ∧
    (∃ t, runFrom Params.default (mela 0x0C#8) 2 = .next t ∧ t.hdr.kind = some .uncompressed ∧ t.phase = .done ∧
      t.result = some (.ok t.out)) :=
  ⟨⟨_, rfl, rfl⟩, _, rfl, rfl, rfl, rfl⟩

/-- Two inputs that differ in byte 4 only. -/
theorem witness_AdvisoryFieldsDecideNothing :
    (lzfu 0x10#8).length = ((lzfu 0x10#8).set 4 0xFF#8).length ∧ lzfu 0x10#8 ≠ (lzfu 0x10#8).set 4 0xFF#8 ∧
    ∀ i, i < 20 → (i < 4 ∨ (8 ≤ i ∧ i < 12) ∨ 16 ≤ i → (lzfu 0x10#8)[i]? = ((lzfu 0x10#8).set 4 0xFF#8)[i]?) := by
  decide

end Sys2Proof.Tests
end

section
/-!
PROOFS. The statements about the state: what reset sets, that no step writes the input or a parameter, and how the
cursor and the write position move.
-/

namespace Sys2Proof.Machine

/-! ### What the operations without a frame lemma of their own leave alone -/

/-- The end of a run on too short a header touches neither the registers nor the dictionary (40_header_parser.md R86). -/
theorem shortHeaderStep_frame (s : State) :
    (shortHeaderStep s).params = s.params ∧ (shortHeaderStep s).input = s.input ∧
      (shortHeaderStep s).phase = .done ∧ (shortHeaderStep s).cur = s.cur ∧ (shortHeaderStep s).dict = s.dict ∧
      (shortHeaderStep s).wrapped = s.wrapped ∧ (shortHeaderStep s).w = s.w ∧ (shortHeaderStep s).out = s.out := by
  simp [shortHeaderStep]

/-- What the REF step leaves alone on each of its three ways out; the cursor is past the token on all of them
(42_compressed_path.md R106). -/
theorem tokenStep_frame (offset : DictIndex) (rawLen : Nibble) (s : State) :
    (tokenStep offset rawLen s).params = s.params ∧ (tokenStep offset rawLen s).input = s.input ∧
      (tokenStep offset rawLen s).bound = s.bound ∧ (tokenStep offset rawLen s).hdr = s.hdr ∧
      (tokenStep offset rawLen s).dict = s.dict ∧ (tokenStep offset rawLen s).wrapped = s.wrapped ∧
      (tokenStep offset rawLen s).w = s.w ∧ (tokenStep offset rawLen s).ctrl = s.ctrl ∧
      (tokenStep offset rawLen s).tok = mkToken offset rawLen ∧ (tokenStep offset rawLen s).out = s.out ∧
      (tokenStep offset rawLen s).draws = s.draws ∧ (tokenStep offset rawLen s).cur = s.cur + 2 := by
  rcases tokenStep_cases offset rawLen s with ⟨_, he⟩ | ⟨_, _, he⟩ | ⟨_, _, he⟩
  · simp [he]
  · simp [he]
  · simp [he]

/-- On its last byte and before it, the COPY step does to every field but `phase` and `copyRemaining` what `copyByte`
does (42_compressed_path.md R110). -/
theorem copyStep_frame (s : State) :
    (copyStep s).params = s.params ∧ (copyStep s).input = s.input ∧ (copyStep s).cur = s.cur ∧
      (copyStep s).bound = s.bound ∧ (copyStep s).hdr = s.hdr ∧
      (copyStep s).dict = s.dict.write s.w.toNat (s.dictRead s.r).1 ∧
      (copyStep s).wrapped = (s.wrapped || decide (s.w + 1#12 = 0#12)) ∧ (copyStep s).w = s.w + 1#12 ∧
      (copyStep s).r = s.r + 1#12 ∧ (copyStep s).ctrl = s.ctrl ∧ (copyStep s).tok = s.tok ∧
      (copyStep s).bitIndex = s.bitIndex ∧ (copyStep s).out = s.out ++ [(s.dictRead s.r).1] ∧
      (copyStep s).result = s.result ∧ (copyStep s).termReason = s.termReason ∧
      (copyStep s).draws = (s.dictRead s.r).2.draws := by
  rcases copyStep_cases s with ⟨_, he⟩ | ⟨_, he⟩
  · simp [he]
  · simp [he]

/-! ### The run's parameters and input (10_state.md R17) -/

/-- No step writes a parameter or the input. -/
theorem step_params_input {s t : State} (h : step s = .next t) : t.params = s.params ∧ t.input = s.input := by
  cases step_cases h with
  | shortHeader => simp [shortHeaderStep_frame]
  | header => simp [headerStep_frame]
  | raw => exact ⟨rfl, rfl⟩
  | passEnd => exact ⟨rfl, rfl⟩
  | ctrl => exact ⟨rfl, rfl⟩
  | lit => exact ⟨rfl, rfl⟩
  | token => simp [tokenStep_frame]
  | softByte => exact ⟨rfl, rfl⟩
  | softToken => exact ⟨rfl, rfl⟩
  | copy => simp [copyStep_frame]

/-! ### The cursor (10_state.md R22) -/

/-- The bytes of the unit that a phase reads (30_encoding.md R65); COPY and DONE read none. -/
def Phase.unitSize : Phase → Nat
  | .header => 16
  | .pass => 1
  | .ctrl => 1
  | .lit => 1
  | .ref => 2
  | .copy => 0
  | .done => 0

/-- Bytes that stand at the cursor lie inside the input. -/
theorem cur_add_length_le {s : State} {front rest : List Byte} (hr : s.inputRest = front ++ rest)
    (hf : front ≠ []) : s.cur + front.length ≤ s.input.length := by
  have hlen := inputRest_length s
  have hpos := List.length_pos_iff.2 hf
  rw [hr, List.length_append] at hlen
  omega

/-- A step that reads a unit takes the whole of it, and all of it lies in the input; one that reads none is a byte of
a copy or ends the run. -/
theorem step_cur {s t : State} (h : step s = .next t) :
    (t.cur = s.cur ∧ (s.phase = .copy ∨ t.phase = .done)) ∨
    (t.cur = s.cur + s.phase.unitSize ∧ 0 < s.phase.unitSize ∧ s.cur + s.phase.unitSize ≤ s.input.length) := by
  cases step_cases h with
  | shortHeader => exact .inl (by simp [shortHeaderStep_frame])
  | header hp hn => exact .inr (by simp [headerStep_frame, hp, Phase.unitSize, hn])
  | raw hp hn => exact .inr (by simpa [hp, Phase.unitSize] using hn)
  | passEnd => exact .inl ⟨rfl, .inr rfl⟩
  | ctrl hp _ c rest hr =>
    have hin := cur_add_length_le (front := [c]) hr (by simp)
    exact .inr (by simpa [hp, Phase.unitSize] using hin)
  | lit hp _ b rest hr =>
    have hin := cur_add_length_le (front := [b]) hr (by simp)
    exact .inr (by simpa [hp, Phase.unitSize] using hin)
  | token hp _ b0 b1 rest hr =>
    have hin := cur_add_length_le (front := [b0, b1]) hr (by simp)
    exact .inr (by simpa [tokenStep_frame, hp, Phase.unitSize] using hin)
  | softByte => exact .inl ⟨rfl, .inr rfl⟩
  | softToken => exact .inl ⟨rfl, .inr rfl⟩
  | copy hp => exact .inl (by simp [copyStep_frame, hp])

/-! ### The write position (10_state.md R27, R28) -/

/-- From `s` to `t` the byte `v` goes to the output and to the cell at the write position, which advances
(42_compressed_path.md R104, R110). -/
structure ProducesByte (s t : State) (v : Byte) : Prop where
  out_eq : t.out = s.out ++ [v]
  dict_eq : t.dict = s.dict.write s.w.toNat v
  wrapped_eq : t.wrapped = (s.wrapped || decide (s.w + 1#12 = 0#12))
  w_eq : t.w = s.w + 1#12

/-- A step either leaves the write position and the dictionary alone, or is a LIT or COPY step that produces one byte. -/
theorem step_keeps_dict_or_produces {s t : State} (h : step s = .next t) :
    (t.w = s.w ∧ t.wrapped = s.wrapped ∧ t.dict = s.dict) ∨
    ((s.phase = .lit ∨ s.phase = .copy) ∧ ∃ v, ProducesByte s t v) := by
  cases step_cases h with
  | shortHeader => exact .inl (by simp [shortHeaderStep_frame])
  | header => exact .inl (by simp [headerStep_frame])
  | raw => exact .inl ⟨rfl, rfl, rfl⟩
  | passEnd => exact .inl ⟨rfl, rfl, rfl⟩
  | ctrl => exact .inl ⟨rfl, rfl, rfl⟩
  | lit hp _ b => exact .inr ⟨.inl hp, b, rfl, rfl, rfl, rfl⟩
  | token => exact .inl (by simp [tokenStep_frame])
  | softByte => exact .inl ⟨rfl, rfl, rfl⟩
  | softToken => exact .inl ⟨rfl, rfl, rfl⟩
  | copy hp => exact .inr ⟨.inr hp, (s.dictRead s.r).1, by constructor <;> simp [copyStep_frame]⟩

/-- The write position advances modulo 4096. -/
theorem ProducesByte.w_toNat {s t : State} {v : Byte} (h : ProducesByte s t v) :
    t.w.toNat = (s.w.toNat + 1) % 4096 := by
  simp [h.w_eq, BitVec.toNat_add]

/-- `wrapped` is set where the write position leaves 4095. -/
theorem ProducesByte.wrapped_of_last {s t : State} {v : Byte} (h : ProducesByte s t v) :
    t.wrapped = (s.wrapped || decide (s.w.toNat = 4095)) := by
  have hlast : s.w + 1#12 = 0#12 ↔ s.w.toNat = 4095 := by
    rw [advanceW_wraps, ← BitVec.toNat_inj]
    rfl
  simp [h.wrapped_eq, hlast]

/-- The byte stands in the cell at the old write position. -/
theorem ProducesByte.read_same {s t : State} {v : Byte} (h : ProducesByte s t v) :
    t.dict.read s.w.toNat = some v := by
  rw [h.dict_eq, Memory.read_write_same]

/-- Every other cell is left alone. -/
theorem ProducesByte.read_other {s t : State} {v : Byte} (h : ProducesByte s t v) {a : Nat} (ha : a ≠ s.w.toNat) :
    t.dict.read a = s.dict.read a := by
  rw [h.dict_eq, Memory.read_write_other _ v ha]

/-- At reset the written cells are those of the seed, below the write position 207 (10_state.md R27, R39). -/
theorem start_written (p : Params) (input : List Byte) (i : DictIndex) :
    (State.start p input).written i = decide (i.toNat < 207) := by
  simp [State.written, State.start, BitVec.lt_def]

end Sys2Proof.Machine

open Sys2Proof Sys2Proof.Machine

/-- Settles O42, over the cases of a step. -/
theorem runParametersNeverWritten : Obligations.RunParametersNeverWritten :=
  fun _ _ h => step_params_input h

/-- Settles O43. The invariant is needed only where the step reads nothing: a unit that is read lies in the input. -/
theorem cursorAdvances : Obligations.CursorAdvances := by
  refine ⟨fun _ _ => rfl, fun s t h => ?_⟩
  rw [(step_params_input h).2]
  rcases step_cur h with ⟨hcur, hwhy⟩ | ⟨hcur, hpos, hin⟩
  · refine ⟨.inl hcur, fun hdone hcopy => ?_, fun hinv => ?_⟩
    · exact absurd hwhy (not_or.2 ⟨hcopy, hdone⟩)
    · exact hcur ▸ hinv.cursorInInput
  · exact ⟨.inr hcur, fun _ _ => by omega, fun _ => by omega⟩

/-- Settles O45: the steps that write the dictionary are those that produce a byte. -/
theorem writePositionFollowsWrites : Obligations.WritePositionFollowsWrites := by
  refine ⟨fun _ _ => rfl, fun s t h => ?_⟩
  rcases step_keeps_dict_or_produces h with hkept | ⟨hphase, v, hv⟩
  · exact .inl hkept
  · exact .inr ⟨hphase, hv.w_toNat, hv.wrapped_of_last, v, hv.out_eq, hv.read_same, fun _ ha => hv.read_other ha⟩

/-- Settles O8. The dictionary lists nothing at reset, so a cell holds what `Memory.initial` says. -/
theorem resetValues : Obligations.ResetValues := by
  intro p input
  refine ⟨rfl, rfl, rfl, rfl, fun a _ => ?_, start_written p input, rfl, rfl, rfl⟩
  exact Memory.read_nil a

end

section
/-!
PROOFS. The byte order of the header's fields: each is the little-endian number of four input bytes in order.
-/

namespace Sys2Proof

/-- The upper part of a joined vector counts multiples of the size of the lower part. -/
theorem toNat_append_eq_add {m n : Nat} (a : BitVec m) (b : BitVec n) :
    (a ++ b).toNat = 2 ^ n * a.toNat + b.toNat := by
  rw [BitVec.toNat_append, Nat.shiftLeft_eq, Nat.mul_comm, Nat.two_pow_add_eq_or_of_lt b.isLt]

/-- `LE32` as a number (00_scope.md R14). -/
theorem le32_toNat (b0 b1 b2 b3 : Byte) :
    (le32 b0 b1 b2 b3).toNat = b0.toNat + 256 * b1.toNat + 65536 * b2.toNat + 16777216 * b3.toNat := by
  rw [le32, toNat_append_eq_add, toNat_append_eq_add, toNat_append_eq_add]
  omega

/-- Header field `k`: `LE32` of input bytes `4k` to `4k+3` (20_memory.md R47). -/
def headerField (bytes : List Byte) (k : Nat) : Word32 :=
  le32 (bytes.getD (4 * k) 0#8) (bytes.getD (4 * k + 1) 0#8) (bytes.getD (4 * k + 2) 0#8) (bytes.getD (4 * k + 3) 0#8)

theorem headerField_toNat (bytes : List Byte) (k : Nat) :
    (headerField bytes k).toNat = (bytes.getD (4 * k) 0#8).toNat + 256 * (bytes.getD (4 * k + 1) 0#8).toNat +
      65536 * (bytes.getD (4 * k + 2) 0#8).toNat + 16777216 * (bytes.getD (4 * k + 3) 0#8).toNat :=
  le32_toNat ..

/-- From 16 bytes on, the header is read as its four fields in order (20_memory.md R47, 40_header_parser.md R87). -/
theorem readHeader_eq_headerFields {bytes : List Byte} (h : 16 ≤ bytes.length) :
    readHeader bytes = some (⟨headerField bytes 0, headerField bytes 1, headerField bytes 2, headerField bytes 3⟩,
      bytes.drop 16) := by
  obtain ⟨_, _, hread⟩ := Machine.readHeader_isSome h
  unfold readHeader at hread
  split at hread
  · rfl
  · cases hread

end Sys2Proof

open Sys2Proof

/-- Settles O4: `readHeader` reads the four fields in order, and each is `LE32` of its bytes. -/
theorem headerFieldsLittleEndian : Obligations.HeaderFieldsLittleEndian :=
  ⟨fun bytes hlen => ⟨_, readHeader_eq_headerFields hlen, headerField_toNat bytes 0, headerField_toNat bytes 1,
    headerField_toNat bytes 2, headerField_toNat bytes 3⟩, rfl⟩

end

section
/-!
PROOFS. The reference token: its fields as numbers, and its two bytes (30_encoding.md R74, R83).
-/

namespace Sys2Proof

/-- `BE16` as a number (00_scope.md R14). -/
theorem be16_toNat (b0 b1 : Byte) : (be16 b0 b1).toNat = b0.toNat * 256 + b1.toNat := by
  rw [be16, toNat_append_eq_add]
  omega

/-- The offset is bits 15 to 4 of the token. -/
theorem tokenOffset_toNat (t : Token) : (tokenOffset t).toNat = t.toNat / 16 := by
  rw [tokenOffset, BitVec.extractLsb'_toNat, Nat.shiftRight_eq_div_pow]
  omega

/-- The raw length is bits 3 to 0 of the token. -/
theorem tokenRawLen_toNat (t : Token) : (tokenRawLen t).toNat = t.toNat % 16 := by
  rw [tokenRawLen, BitVec.extractLsb'_toNat, Nat.shiftRight_zero]

/-- A token whose fields are given as numbers is `(o << 4) | n` (30_encoding.md R75). -/
theorem mkToken_ofNat {o n : Nat} (ho : o < 4096) (hn : n < 16) :
    mkToken (BitVec.ofNat 12 o) (BitVec.ofNat 4 n) = BitVec.ofNat 16 (o <<< 4 ||| n) := by
  apply BitVec.eq_of_toNat_eq
  rw [mkToken, toNat_append_eq_add, BitVec.toNat_ofNat, BitVec.toNat_ofNat, BitVec.toNat_ofNat,
    Nat.mod_eq_of_lt ho, Nat.mod_eq_of_lt hn, Nat.shiftLeft_eq, Nat.mul_comm o, ← Nat.two_pow_add_eq_or_of_lt hn]
  omega

/-- The bytes of the token numbered `n`: the high one, then the low one (20_memory.md R48). -/
theorem be16Bytes_ofNat (n : Nat) :
    be16Bytes (BitVec.ofNat 16 n) = [BitVec.ofNat 8 (n >>> 8), BitVec.ofNat 8 (n &&& 0xFF)] := by
  have hlow : n &&& 0xFF = n % 2 ^ 8 := Nat.and_two_pow_sub_one_eq_mod n 8
  rw [be16Bytes, hlow, Nat.shiftRight_eq_div_pow]
  congr 2
  · apply BitVec.eq_of_toNat_eq
    rw [BitVec.extractLsb'_toNat, BitVec.toNat_ofNat, BitVec.toNat_ofNat, Nat.shiftRight_eq_div_pow]
    omega
  · apply BitVec.eq_of_toNat_eq
    rw [BitVec.extractLsb'_toNat, BitVec.toNat_ofNat, BitVec.toNat_ofNat, Nat.shiftRight_zero]
    omega

end Sys2Proof

open Sys2Proof

/-- Settles O5: the decoded fields are `tokenOffset` and `tokenRawLen` of `BE16(b0, b1)`. -/
theorem referenceTokenLayout : Obligations.ReferenceTokenLayout := by
  intro w b0 b1 rest
  refine ⟨tokenOffset (be16 b0 b1), tokenRawLen (be16 b0 b1), rfl, ?_, ?_⟩
  · rw [tokenOffset_toNat, be16_toNat]
  · rw [tokenRawLen_toNat, be16_toNat]

/-- Settles O6: the token is the number `(o << 4) | (l - 2)`, and its bytes are that number's. -/
theorem referenceEncodingBytes : Obligations.ReferenceEncodingBytes := by
  refine ⟨fun o l ho _ hl => ?_, by decide, by decide⟩
  rw [Instr.encode, mkToken_ofNat ho (by omega), be16Bytes_ofNat]

end

section
/-!
PROOFS. The input bytes of a group (30_encoding.md R77): from its CTRL step on, the cursor is past the control byte and
the tokens read so far.
-/

namespace Sys2Proof

/-! ### Runs -/

/-- A run whose first step goes to `u` is that step, then the rest of the run from `u`. -/
theorem run_succ_of_step {M : Host.Core} {s u : M.State} (h : M.step s = .next u) (k : Nat) :
    M.run (k + 1) s = M.run k u := by
  simp only [Host.Core.run, h]

/-- A run of at least one step reaches a state only if its first step goes on. -/
theorem step_of_run_succ {M : Host.Core} {k : Nat} {s t : M.State} (h : M.run (k + 1) s = .next t) :
    ∃ u, M.step s = .next u := by
  unfold Host.Core.run at h
  split at h
  · exact ⟨_, ‹_›⟩
  · cases h
  · cases h

/-- The last step of a run that reaches `t`. -/
theorem last_step_of_run {M : Host.Core} {k : Nat} {s t : M.State} (h : M.run (k + 1) s = .next t) :
    ∃ u, M.run k s = .next u ∧ M.step u = .next t := by
  induction k generalizing s with
  | zero =>
    obtain ⟨u, hu⟩ := step_of_run_succ h
    exact ⟨s, rfl, hu.trans ((run_succ_of_step hu 0).symm.trans h)⟩
  | succ k ih =>
    obtain ⟨v, hv⟩ := step_of_run_succ h
    obtain ⟨u, hrun, hlast⟩ := ih ((run_succ_of_step hv (k + 1)).symm.trans h)
    exact ⟨u, (run_succ_of_step hv k).trans hrun, hlast⟩

/-! ### Counting the bytes of a group's first tokens -/

/-- Token `n` takes one byte, and one more if its control bit is set. -/
theorem groupPrefixBytes_succ (c : Byte) (n : Nat) :
    groupPrefixBytes c (n + 1) = groupPrefixBytes c n + (1 + (c.getLsbD n).toNat) := by
  unfold groupPrefixBytes
  cases hb : c.getLsbD n with
  | false => simp [List.range_succ, hb]; omega
  | true => simp [List.range_succ, hb]; omega

/-- The bytes of the first `n` tokens as a sum over them. -/
theorem groupPrefixBytes_eq_sum (c : Byte) (n : Nat) :
    groupPrefixBytes c n = 1 + ((List.range n).map (fun i => 1 + (c.getLsbD i).toNat)).sum := by
  induction n with
  | zero => rfl
  | succ n ih => simp [groupPrefixBytes_succ, ih, List.range_succ, Nat.add_assoc]

/-- A complete group takes 9 to 17 bytes. -/
theorem groupBytes_range (c : Byte) : 9 ≤ groupBytes c ∧ groupBytes c ≤ 17 := by
  have hcount : ((List.range 8).filter (fun i => c.getLsbD i)).length ≤ 8 := List.length_filter_le _ _
  unfold groupBytes groupPrefixBytes
  omega

namespace Machine

/-! ### How far a group has come -/

/-- The cursor stands past the control byte and the first `n` tokens of the group whose control byte is at `start`. -/
def State.PastTokens (start n : Nat) (t : State) : Prop := t.cur = start + groupPrefixBytes t.ctrl n

/-- Reading token `n` whole, with the control byte kept, puts the cursor past `n + 1` tokens. -/
theorem State.PastTokens.succ {start n : Nat} {s t : State} (h : s.PastTokens start n) (hctrl : t.ctrl = s.ctrl)
    (hcur : t.cur = s.cur + (1 + (controlBit s.ctrl n).toNat)) : t.PastTokens start (n + 1) := by
  unfold State.PastTokens at h ⊢
  rw [hcur, h, hctrl, groupPrefixBytes_succ, controlBit, Nat.add_assoc]

/-- The states of a group whose control byte is at `start`, from its CTRL step to the next. -/
inductive InGroup (start : Nat) (t : State) : Prop where
  /-- The next token is to be read, or the group is complete (42_compressed_path.md R103). -/
  | nextToken (hp : t.phase = nextTokenPhase t.ctrl t.bitIndex) (hc : t.PastTokens start t.bitIndex)
  /-- The copy of the last token read goes on (42_compressed_path.md R110). -/
  | copying (hp : t.phase = .copy) (hc : t.PastTokens start t.bitIndex)
  /-- The token at `bitIndex` was the sentinel (42_compressed_path.md R108). -/
  | atSentinel (hp : t.phase = .done) (hc : t.PastTokens start (t.bitIndex + 1))
  /-- The input ended (42_compressed_path.md R112). -/
  | outOfInput (hp : t.phase = .done) (hr : t.termReason = .endOfInput)
  /-- The token raised an error (42_compressed_path.md R107). -/
  | failed (hp : t.phase = .done) (e : RunError) (hr : t.result = some (.err e))

section Phases
variable {start : Nat} {s t : State}

/-- Where a token is to be read or the group is complete, the phase is the one its control bit selects. -/
theorem InGroup.nextToken_inv (h : InGroup start t) (hcopy : t.phase ≠ .copy) (hdone : t.phase ≠ .done) :
    t.phase = nextTokenPhase t.ctrl t.bitIndex ∧ t.PastTokens start t.bitIndex := by
  cases h with
  | nextToken hp hc => exact ⟨hp, hc⟩
  | copying hp => exact absurd hp hcopy
  | atSentinel hp => exact absurd hp hdone
  | outOfInput hp => exact absurd hp hdone
  | failed hp => exact absurd hp hdone

/-- No state of a group is in a phase outside the compressed path, but for the end of the run. -/
theorem InGroup.phase_ne_header_pass (h : InGroup start t) : t.phase ≠ .header ∧ t.phase ≠ .pass := by
  cases h with
  | nextToken hp => rcases nextTokenPhase_cases t.ctrl t.bitIndex with hn | hn | hn <;> simp [hp, hn]
  | copying hp => simp [hp]
  | atSentinel hp => simp [hp]
  | outOfInput hp => simp [hp]
  | failed hp => simp [hp]

/-- In CTRL the group is complete: eight tokens have been read. -/
theorem InGroup.of_ctrl (h : InGroup start t) (hp : t.phase = .ctrl) : t.PastTokens start 8 := by
  obtain ⟨hn, hc⟩ := h.nextToken_inv (by simp [hp]) (by simp [hp])
  rwa [(nextTokenPhase_eq_ctrl _ _).1 (hn.symm.trans hp)] at hc

/-- In LIT the control bit of the token to be read is clear. -/
theorem InGroup.of_lit (h : InGroup start t) (hp : t.phase = .lit) :
    controlBit t.ctrl t.bitIndex = false ∧ t.PastTokens start t.bitIndex := by
  obtain ⟨hn, hc⟩ := h.nextToken_inv (by simp [hp]) (by simp [hp])
  exact ⟨((nextTokenPhase_eq_lit _ _).1 (hn.symm.trans hp)).2, hc⟩

/-- In REF the control bit of the token to be read is set. -/
theorem InGroup.of_ref (h : InGroup start t) (hp : t.phase = .ref) :
    controlBit t.ctrl t.bitIndex = true ∧ t.PastTokens start t.bitIndex := by
  obtain ⟨hn, hc⟩ := h.nextToken_inv (by simp [hp]) (by simp [hp])
  exact ⟨((nextTokenPhase_eq_ref _ _).1 (hn.symm.trans hp)).2, hc⟩

/-- In COPY the token being copied has been read. -/
theorem InGroup.of_copy (h : InGroup start t) (hp : t.phase = .copy) : t.PastTokens start t.bitIndex := by
  cases h with
  | nextToken _ hc => exact hc
  | copying _ hc => exact hc
  | atSentinel hq => simp [hp] at hq
  | outOfInput hq => simp [hp] at hq
  | failed hq => simp [hp] at hq

/-- A run that a sentinel ends has read the token at `bitIndex`. -/
theorem InGroup.of_sentinel (h : InGroup start t) (hp : t.phase = .done) {bytes : List Byte}
    (hr : t.result = some (.ok bytes)) (hreason : t.termReason = .sentinel) :
    t.PastTokens start (t.bitIndex + 1) := by
  cases h with
  | nextToken hq => rcases nextTokenPhase_cases t.ctrl t.bitIndex with hn | hn | hn <;> simp [hp, hn] at hq
  | copying hq => simp [hp] at hq
  | atSentinel _ hc => exact hc
  | outOfInput _ hq => simp [hreason] at hq
  | failed _ e hq => simp [hr] at hq

/-! ### The steps of a group -/

/-- A CTRL step begins a group, or the input has ended; the other rules need another phase. -/
theorem inGroup_of_ctrl_step (hp : s.phase = .ctrl) (h : step s = .next t) : InGroup s.cur t := by
  cases step_cases h with
  | ctrl => exact .nextToken rfl rfl
  | softByte => exact .outOfInput rfl rfl
  | _ => simp_all

/-- The REF step reads its token whole on each of its three ways out (42_compressed_path.md R106). -/
theorem InGroup.tokenStep (h : InGroup start s) (hp : s.phase = .ref) (offset : DictIndex) (rawLen : Nibble) :
    InGroup start (tokenStep offset rawLen s) := by
  obtain ⟨hbit, hc⟩ := h.of_ref hp
  rcases tokenStep_cases offset rawLen s with ⟨_, he⟩ | ⟨_, _, he⟩ | ⟨_, _, he⟩
  · rw [he]
    exact .atSentinel rfl (hc.succ rfl (by simp [hbit]))
  · rw [he]
    exact .failed rfl _ rfl
  · rw [he]
    exact .copying rfl (hc.succ rfl (by simp [hbit]))

/-- The COPY step reads no input; after its last byte comes the next token (42_compressed_path.md R110). -/
theorem InGroup.copyStep (h : InGroup start s) (hp : s.phase = .copy) : InGroup start (copyStep s) := by
  have hc : (Machine.copyStep s).PastTokens start (Machine.copyStep s).bitIndex := by
    simpa [State.PastTokens, copyStep_frame] using h.of_copy hp
  rcases copyStep_cases s with ⟨_, he⟩ | ⟨_, he⟩
  · exact .nextToken (by simp [he]) hc
  · exact .copying (by simp [he, hp]) hc

/-- Every step but a CTRL step stays in the group. -/
theorem InGroup.step (h : InGroup start s) (hp : s.phase ≠ .ctrl) (hs : step s = .next t) : InGroup start t := by
  obtain ⟨hheader, hpass⟩ := h.phase_ne_header_pass
  cases step_cases hs with
  | shortHeader hq => exact absurd hq hheader
  | header hq => exact absurd hq hheader
  | raw hq => exact absurd hq hpass
  | passEnd hq => exact absurd hq hpass
  | ctrl hq => exact absurd hq hp
  | lit hq =>
    obtain ⟨hbit, hc⟩ := h.of_lit hq
    exact .nextToken rfl (hc.succ rfl (by simp [hbit]))
  | token hq => exact h.tokenStep hq _ _
  | softByte => exact .outOfInput rfl rfl
  | softToken => exact .outOfInput rfl rfl
  | copy hq => exact h.copyStep hq

/-- From a CTRL state on, a run with no other CTRL state on its way stays in the group. -/
theorem inGroup_of_run (hp : s.phase = .ctrl) {k : Nat} (hrun : Host.Core.run core (k + 1) s = .next t)
    (hway : ∀ (j : Nat) (u : State), 0 < j → j < k + 1 → Host.Core.run core j s = .next u → u.phase ≠ .ctrl) :
    InGroup s.cur t := by
  induction k generalizing t with
  | zero =>
    obtain ⟨u, hu, hlast⟩ := last_step_of_run hrun
    cases hu
    exact inGroup_of_ctrl_step hp hlast
  | succ k ih =>
    obtain ⟨u, hu, hlast⟩ := last_step_of_run hrun
    have hgroup : InGroup s.cur u := ih hu fun j v hpos hlt => hway j v hpos (by omega)
    exact hgroup.step (hway (k + 1) u (by omega) (by omega) hu) hlast

end Phases

end Machine
end Sys2Proof

open Sys2Proof Sys2Proof.Machine

/-- Settles O49: the run stays in the group that its first step begins, by induction on its length. -/
theorem groupTakesItsBytes : Obligations.GroupTakesItsBytes := by
  refine ⟨fun s t k hp hk hrun hway => ?_, groupBytes_range⟩
  obtain ⟨n, rfl⟩ := Nat.exists_eq_add_of_lt hk
  rw [Nat.zero_add] at hrun hway
  have hgroup : InGroup s.cur t := inGroup_of_run hp hrun hway
  refine ⟨fun hctrl => hgroup.of_ctrl hctrl, fun bytes hdone hok hreason => ?_⟩
  rw [← groupPrefixBytes_eq_sum]
  exact hgroup.of_sentinel hdone hok hreason

end

section
/-!
PROOFS. The size errors of the HEADER step: a declared size below its kind's minimum, and too short an input
(40_header_parser.md R86, R89).
-/

namespace Sys2Proof.Machine

/-! ### The two kinds and their minimum sizes -/

theorem kindOf_magicCompressed : kindOf magicCompressed = some .compressed := rfl

theorem kindOf_magicUncompressed : kindOf magicUncompressed = some .uncompressed := rfl

/-- A Compressed header has two minimums, and the larger decides (40_header_parser.md R89). -/
theorem sizeTooSmall_compressed (size : Word32) : sizeTooSmall .compressed size = decide (size.toNat < 0x10) := by
  have hminimums : size < minSizeAny ∨ size < minSizeCompressed ↔ size.toNat < 0x10 := by
    simp only [BitVec.lt_def, minSizeAny, minSizeCompressed, BitVec.toNat_ofNat]
    omega
  simp [sizeTooSmall, ← hminimums]

/-- An Uncompressed header has the general minimum only (40_header_parser.md R89). -/
theorem sizeTooSmall_uncompressed (size : Word32) : sizeTooSmall .uncompressed size = decide (size.toNat < 0x0C) := by
  simp [sizeTooSmall, minSizeAny, BitVec.lt_def]

/-- The minimum of either kind is at least the general one. -/
theorem sizeTooSmall_of_lt_minSizeAny {size : Word32} (h : size < minSizeAny) (k : Kind) :
    sizeTooSmall k size = true := by
  simp [sizeTooSmall, h]

/-! ### The HEADER step on a header of legal kind -/

/-- Dispatch delivers no result (40_header_parser.md R90). -/
@[simp] theorem enterPayload_result (s : State) (k : Kind) : (s.enterPayload k).result = s.result := by
  cases k <;> rfl

section LegalKind
variable {h : RawHeader} {k : Kind} (hk : kindOf h.kindRaw = some k)
include hk

/-- Under either order of the checks, too small a declared size raises `InvalidSize` with that size. -/
theorem headerStep_of_sizeTooSmall (s : State) (hsize : sizeTooSmall k h.compressedSize = true) :
    (headerStep h s).phase = .done ∧ (headerStep h s).result = some (.err (.invalidSize h.compressedSize)) := by
  rcases headerStep_cases h s with ⟨_, _, he⟩ | ⟨hnone, _⟩ | ⟨_, _, _, he⟩ | ⟨k', hk', hlegal, _⟩
  · simp [he]
  · simp [hk] at hnone
  · simp [he]
  · obtain rfl : k = k' := by simpa [hk] using hk'
    simp [hsize] at hlegal

/-- Under either order of the checks, a declared size from the minimum on raises nothing. -/
theorem headerStep_result_of_legalSize (s : State) (hsize : sizeTooSmall k h.compressedSize = false) :
    (headerStep h s).result = s.result := by
  rcases headerStep_cases h s with ⟨_, hany, _⟩ | ⟨hnone, _⟩ | ⟨k', hk', hsmall, _⟩ | ⟨_, _, _, he⟩
  · simp [sizeTooSmall_of_lt_minSizeAny hany] at hsize
  · simp [hk] at hnone
  · obtain rfl : k = k' := by simpa [hk] using hk'
    simp [hsize] at hsmall
  · simp [he]

/-- A header instruction whose declared size is too small ends the run with the size error, and no output. -/
theorem exec_header_raises {i : Instr} {s : State} (hi : headerInstr h = .ok i) (hp : s.phase = .header)
    (hsize : sizeTooSmall k h.compressedSize = true) :
    ∃ t, exec i s = .next t ∧ t.phase = .done ∧ t.result = some (.err (.invalidSize h.compressedSize)) ∧
      t.out = s.out := by
  obtain ⟨hphase, hresult⟩ := headerStep_of_sizeTooSmall hk s hsize
  exact ⟨_, exec_headerInstr hi hp, hphase, hresult, by simp [headerStep_frame]⟩

/-- A header instruction of legal declared size goes on without a result. -/
theorem exec_header_goes_on {i : Instr} {s : State} (hi : headerInstr h = .ok i) (hp : s.phase = .header)
    (hsize : sizeTooSmall k h.compressedSize = false) : ∃ t, exec i s = .next t ∧ t.result = s.result :=
  ⟨_, exec_headerInstr hi hp, headerStep_result_of_legalSize hk s hsize⟩

end LegalKind

theorem headerInstr_magicCompressed (size rawSize checksum : Word32) :
    headerInstr ⟨size, rawSize, magicCompressed, checksum⟩ = .ok (.hdrLzfu size rawSize checksum) := rfl

theorem headerInstr_magicUncompressed (size rawSize checksum : Word32) :
    headerInstr ⟨size, rawSize, magicUncompressed, checksum⟩ = .ok (.hdrMela size rawSize checksum) := rfl

/-! ### Too short an input -/

/-- With fewer than 16 bytes left no header is decoded (40_header_parser.md R86). -/
theorem step_of_shortInput {s : State} (hp : s.phase = .header) (hn : s.input.length - s.cur < 16) :
    step s = .next (shortHeaderStep s) := by
  simp [step, State.fetch, hp, hn]

end Sys2Proof.Machine

open Sys2Proof Sys2Proof.Machine

/-- Settles O23: the size check under the kind decides, whichever check comes first. -/
theorem smallSizeRaises : Obligations.SmallSizeRaises := by
  intro size rawSize checksum s hp
  have hlzfu := headerInstr_magicCompressed size rawSize checksum
  have hmela := headerInstr_magicUncompressed size rawSize checksum
  refine ⟨fun hlt => ?_, fun hlt => ?_, fun hle => ?_, fun hle => ?_⟩
  · exact exec_header_raises kindOf_magicCompressed hlzfu hp (by simpa [sizeTooSmall_compressed] using hlt)
  · exact exec_header_raises kindOf_magicUncompressed hmela hp (by simpa [sizeTooSmall_uncompressed] using hlt)
  · exact exec_header_goes_on kindOf_magicCompressed hlzfu hp (by simpa [sizeTooSmall_compressed] using hle)
  · exact exec_header_goes_on kindOf_magicUncompressed hmela hp (by simpa [sizeTooSmall_uncompressed] using hle)

/-- Settles O24: availability is tested before any byte is taken, and the end on a short header reads nothing. -/
theorem shortInputRaises : Obligations.ShortInputRaises :=
  fun s hp hn => ⟨shortHeaderStep s, s.drawU32.1, step_of_shortInput hp hn, rfl, rfl, rfl, rfl⟩

end

section
/-!
PROOFS. The uncompressed path (41_uncompressed_path.md): the PASS step, and the run of an Uncompressed header from its
HEADER step over the payload to its end.
-/

namespace Sys2Proof.Machine

/-! ### The PASS step (41_uncompressed_path.md R95) -/

/-- Below `N` the input from the cursor on begins with the byte at the cursor. -/
theorem inputRest_eq_cons {s : State} (hn : s.cur < s.input.length) :
    s.inputRest = s.input.getD s.cur 0#8 :: s.input.drop (s.cur + 1) := by
  rw [State.inputRest, List.drop_eq_getElem_cons hn, List.getElem_eq_getD]

/-- Below `N` the PASS step is `RAW` of the byte at the cursor. -/
theorem step_of_passByte {s : State} (hp : s.phase = .pass) (hn : s.cur < s.input.length) :
    step s = .next ((s.emit (s.input.getD s.cur 0#8)).advanceCur 1) := by
  have hfetch : s.fetch = .instr (.raw (s.input.getD s.cur 0#8)) := by
    simp only [State.fetch, hp, hn, if_true, State.fetchUnit, decode, inputRest_eq_cons hn, decodeByte]
  simp only [step, hfetch, exec, execRaw, State.enabledIn, hp, if_true]

/-- At `N` the PASS step ends the run. -/
theorem step_of_passEnd {s : State} (hp : s.phase = .pass) (hn : s.input.length ≤ s.cur) :
    step s = .next (passEndStep s) := by
  simp [step, State.fetch, hp, Nat.not_lt.2 hn]

/-! ### The payload (41_uncompressed_path.md R96) -/

/-- The pass-through with the rest of the input emitted and the cursor at `N`. -/
def State.passRest (s : State) : State := { s with out := s.out ++ s.inputRest, cur := s.input.length }

/-- At `N` nothing is left to pass through. -/
theorem passRest_of_cur_eq {s : State} (hn : s.cur = s.input.length) : s.passRest = s := by
  rw [State.passRest, State.inputRest, List.drop_eq_nil_of_le hn.ge, List.append_nil, ← hn]

/-- Passing the byte at the cursor and then the rest passes all of it. -/
theorem passRest_after_byte {s : State} (hn : s.cur < s.input.length) :
    ((s.emit (s.input.getD s.cur 0#8)).advanceCur 1).passRest = s.passRest := by
  have hout : (s.out ++ [s.input.getD s.cur 0#8]) ++ s.input.drop (s.cur + 1) = s.out ++ s.inputRest := by
    rw [inputRest_eq_cons hn, List.append_assoc, List.singleton_append]
  unfold State.passRest
  rw [← hout]
  rfl

/-- In PASS, one step for each byte that is left and one more end the run with all of them emitted. -/
theorem run_of_pass {s : State} (hp : s.phase = .pass) {n : Nat} (hn : s.cur + n = s.input.length) :
    Host.Core.run core (n + 1) s = .next (passEndStep s.passRest) := by
  induction n generalizing s with
  | zero =>
    rw [passRest_of_cur_eq hn]
    exact run_succ_of_step (M := core) (step_of_passEnd hp (Nat.le_of_eq hn.symm)) 0
  | succ n ih =>
    have hlt : s.cur < s.input.length := by omega
    have hnext : s.cur + 1 + n = s.input.length := by omega
    calc Host.Core.run core (n + 1 + 1) s
        = Host.Core.run core (n + 1) ((s.emit (s.input.getD s.cur 0#8)).advanceCur 1) :=
          run_succ_of_step (M := core) (step_of_passByte hp hlt) (n + 1)
      _ = .next (passEndStep ((s.emit (s.input.getD s.cur 0#8)).advanceCur 1).passRest) := ih hp hnext
      _ = .next (passEndStep s.passRest) := by rw [passRest_after_byte hlt]

/-! ### The HEADER step before it (40_header_parser.md R85) -/

/-- A header is read from 16 bytes or more. -/
theorem length_of_readHeader {bytes rest : List Byte} {h : RawHeader} (hr : readHeader bytes = some (h, rest)) :
    16 ≤ bytes.length := by
  unfold readHeader at hr
  split at hr
  · simp
  · cases hr

/-- The only error of a whole header is its kind (30_encoding.md R68). -/
theorem eq_illegalKind_of_headerInstr {h : RawHeader} {e : DecodeError} (he : headerInstr h = .error e) :
    e = .illegalKind h := by
  unfold headerInstr at he
  split at he
  · cases he
  · split at he
    · cases he
    · cases he
      rfl

/-- The HEADER step on a whole header, of whatever kind, is `headerStep` on its fields. -/
theorem step_of_header {s : State} {h : RawHeader} {rest : List Byte} (hp : s.phase = .header)
    (hr : readHeader s.inputRest = some (h, rest)) : step s = .next (headerStep h s) := by
  have hn : ¬ s.input.length - s.cur < 16 := by
    rw [← inputRest_length]
    exact Nat.not_lt.2 (length_of_readHeader hr)
  have hfetch : s.fetch = s.fetchUnit .header := by simp [State.fetch, hp, hn]
  cases hi : headerInstr h with
  | ok i => simp [step, hfetch, State.fetchUnit, decode, decodeHeader, hr, hi, exec_headerInstr hi hp]
  | error e =>
    obtain rfl := eq_illegalKind_of_headerInstr hi
    simp [step, hfetch, State.fetchUnit, decode, decodeHeader, hr, hi, illegalHeaderStep]

/-- A header of legal kind and size enters its payload, under either order of the checks. -/
theorem headerStep_of_legalSize {h : RawHeader} {k : Kind} (hk : kindOf h.kindRaw = some k)
    (hsize : sizeTooSmall k h.compressedSize = false) (s : State) :
    headerStep h s = ((s.storeHeader h).setKind k).enterPayload k := by
  rcases headerStep_cases h s with ⟨_, hany, _⟩ | ⟨hnone, _⟩ | ⟨k', hk', hsmall, _⟩ | ⟨k', hk', _, he⟩
  · simp [sizeTooSmall_of_lt_minSizeAny hany] at hsize
  · simp [hk] at hnone
  · obtain rfl : k = k' := by simpa [hk] using hk'
    simp [hsize] at hsmall
  · obtain rfl : k = k' := by simpa [hk] using hk'
    exact he

/-- The state in which the pass-through of a run on `input` begins, its header being `h`. -/
def passStart (p : Params) (input : List Byte) (h : RawHeader) : State :=
  (((State.start p input).storeHeader h).setKind .uncompressed).setPhase .pass

/-- The first step of a run on an Uncompressed header of legal size begins the pass-through. -/
theorem step_start_of_uncompressed (p : Params) {input rest : List Byte} {h : RawHeader}
    (hr : readHeader input = some (h, rest)) (hk : h.kindRaw = magicUncompressed)
    (hsize : minSizeAny ≤ h.compressedSize) :
    step (State.start p input) = .next (passStart p input h) := by
  have hlegal : sizeTooSmall .uncompressed h.compressedSize = false := by
    simpa [sizeTooSmall_uncompressed, minSizeAny, BitVec.le_def] using hsize
  have hkind : kindOf h.kindRaw = some .uncompressed := by rw [hk, kindOf_magicUncompressed]
  rw [step_of_header (s := State.start p input) rfl hr, headerStep_of_legalSize hkind hlegal]
  rfl

end Sys2Proof.Machine

open Sys2Proof Sys2Proof.Machine

/-- Settles O11: the two branches are `RAW` of the byte at the cursor and the end of the pass-through. -/
theorem passStepRule : Obligations.PassStepRule := by
  intro s hp
  split
  · exact step_of_passByte hp ‹_›
  · exact step_of_passEnd hp (Nat.not_lt.1 ‹_›)

/-- Settles O47: after the HEADER step, a PASS step for each payload byte and one more, by induction on the payload. -/
theorem passThroughDeliversPayload : Obligations.PassThroughDeliversPayload := by
  intro p input h rest hr hk hsize
  have hlen : 16 + (input.length - 16) = input.length := Nat.add_sub_of_le (length_of_readHeader hr)
  refine ⟨passEndStep (passStart p input h).passRest, ?_, rfl, rfl, List.length_drop, rfl, fun _ => rfl⟩
  have hsteps : 1 + (input.length - 16) + 1 = input.length - 16 + 1 + 1 := by omega
  rw [runFrom, hsteps, run_succ_of_step (M := core) (step_start_of_uncompressed p hr hk hsize)]
  exact run_of_pass rfl hlen

end

section
/-!
PROOFS. The compressed path (42_compressed_path.md): the CTRL, LIT and COPY steps whole, soft termination, and the ways
a step ends a run.
-/

namespace Sys2Proof.Machine

/-! ### Availability (00_scope.md R11) -/

theorem inAvail_iff {s : State} {n : Nat} : s.inAvail n = true ↔ s.cur + n ≤ s.bound := by
  simp [State.inAvail]

theorem inAvail_eq_false_iff {s : State} {n : Nat} : s.inAvail n = false ↔ s.bound < s.cur + n := by
  simp [State.inAvail]

/-- A readable unit whose bytes decode to `i` is fetched as `i`. -/
theorem fetchBounded_of_decode {s : State} {f : Format} {i : Instr} {rest : List Byte}
    (ha : s.cur + f.size ≤ s.bound) (hd : decode f s.w s.inputRest = .ok (i, rest)) :
    s.fetchBounded f = .instr i := by
  simp [State.fetchBounded, inAvail_iff.2 ha, State.fetchUnit, hd]

/-- A unit that the readable input does not hold whole is not fetched, whatever bytes there are. -/
theorem fetchBounded_of_lack {s : State} {f : Format} (ha : s.bound < s.cur + f.size) :
    s.fetchBounded f = .exhausted := by
  simp [State.fetchBounded, inAvail_eq_false_iff.2 ha]

/-! ### Soft termination (42_compressed_path.md R112) -/

/-- The phase reads a unit of the compressed path that the readable input does not hold whole. -/
def State.LacksUnit (s : State) : Prop :=
  (s.phase = .ctrl ∧ s.bound < s.cur + 1) ∨ (s.phase = .lit ∧ s.bound < s.cur + 1) ∨
    (s.phase = .ref ∧ s.bound < s.cur + 2)

/-- A step that lacks its input terminates softly. -/
theorem step_of_lacksUnit {s : State} (h : s.LacksUnit) : step s = .next (softTerminateStep s) := by
  have hfetch : s.fetch = .exhausted := by
    unfold State.fetch
    rcases h with ⟨hp, ha⟩ | ⟨hp, ha⟩ | ⟨hp, ha⟩
    · simp only [hp, fetchBounded_of_lack (f := .control) ha]
    · simp only [hp, fetchBounded_of_lack (f := .literal) ha]
    · simp only [hp, fetchBounded_of_lack (f := .reference) ha]
  simp only [step, hfetch]

/-! ### The CTRL and LIT steps (42_compressed_path.md R102, R104) -/

/-- A readable control byte begins a group with token 0. -/
theorem step_of_controlByte {s : State} (hp : s.phase = .ctrl) (ha : s.cur + 1 ≤ s.bound)
    (hb : s.bound ≤ s.input.length) :
    step s = .next
      ({ s.advanceCur 1 with ctrl := s.input.getD s.cur 0#8, bitIndex := 0 } : State).toNextToken := by
  have hfetch : s.fetch = .instr (.ctrl (s.input.getD s.cur 0#8)) := by
    simp only [State.fetch, hp]
    exact fetchBounded_of_decode ha (by rw [inputRest_eq_cons (ha.trans hb)]; rfl)
  simp only [step, hfetch, exec, execCtrl, State.enabledIn, hp, if_true]

/-- A readable literal is produced, and the next token follows. -/
theorem step_of_literalByte {s : State} (hp : s.phase = .lit) (ha : s.cur + 1 ≤ s.bound)
    (hb : s.bound ≤ s.input.length) :
    step s = .next ((s.advanceCur 1).produce (s.input.getD s.cur 0#8)).advanceBit.toNextToken := by
  have hfetch : s.fetch = .instr (.lit (s.input.getD s.cur 0#8)) := by
    simp only [State.fetch, hp]
    exact fetchBounded_of_decode ha (by rw [inputRest_eq_cons (ha.trans hb)]; rfl)
  simp only [step, hfetch, exec, execLit, State.enabledIn, hp, if_true]

/-! ### The bytes that LIT and COPY produce (42_compressed_path.md R104, R110) -/

/-- An offset advances modulo 4096 (20_memory.md R44). -/
theorem dictIndex_succ (i : DictIndex) : i + 1#12 = BitVec.ofNat 12 ((i.toNat + 1) % 4096) := by
  apply BitVec.eq_of_toNat_eq
  simp [BitVec.toNat_add]

/-- All that producing a byte changes, the write position told in numbers. -/
theorem produce_eq (s : State) (v : Byte) :
    s.produce v = { s with
      out := s.out ++ [v]
      dict := s.dict.write s.w.toNat v
      w := BitVec.ofNat 12 ((s.w.toNat + 1) % 4096)
      wrapped := s.wrapped || decide (s.w = 4095#12) } := by
  rw [← dictIndex_succ, ← decide_eq_decide.2 (advanceW_wraps s.w)]
  rfl

/-- `Written(i)` in numbers (10_state.md R27). -/
theorem written_iff {s : State} {i : DictIndex} : s.written i = true ↔ s.wrapped = true ∨ i.toNat < s.w.toNat := by
  simp [State.written, BitVec.lt_def]

/-- A dictionary read of a written cell that has a value answers that value. -/
theorem read_eq_dictRead_of_written {s : State} {i : DictIndex} (hw : s.written i = true)
    (hv : (s.dict.read i.toNat).isSome = true) : s.dict.read i.toNat = some (s.dictRead i).1 := by
  obtain ⟨v, hread⟩ := Option.isSome_iff_exists.1 hv
  have hcell : s.cellValue i = some v := by rw [State.cellValue, if_pos hw, hread]
  rw [dictRead_of_value hcell, hread]

/-- A dictionary read of a never-written cell answers the fill byte, if there is one (00_scope.md R12). -/
theorem dictRead_of_fill {s : State} {i : DictIndex} {f : Byte} (hw : s.written i = false)
    (hf : s.params.dictFill = some f) : s.dictRead i = (f, s) := by
  simp [State.dictRead, State.cellValue, State.unwrittenValue, hw, hf]

/-- Draw or none, the state after a dictionary read is the state before it at another draw count. -/
theorem dictRead_state_eq (s : State) (i : DictIndex) :
    (s.dictRead i).2 = { s with draws := (s.dictRead i).2.draws } := by
  rcases dictRead_state s i with h | h <;> rw [h]

/-- All that one byte of a copy changes, both offsets told in numbers. -/
theorem copyByte_eq (s : State) :
    copyByte s = { s with
      out := s.out ++ [(s.dictRead s.r).1]
      dict := s.dict.write s.w.toNat (s.dictRead s.r).1
      r := BitVec.ofNat 12 ((s.r.toNat + 1) % 4096)
      w := BitVec.ofNat 12 ((s.w.toNat + 1) % 4096)
      wrapped := s.wrapped || decide (s.w = 4095#12)
      draws := (s.dictRead s.r).2.draws } := by
  rw [copyByte, dictRead_state_eq, produce_eq, State.advanceR, dictIndex_succ]

/-- The COPY step is one byte of the copy, then the next token after the last byte. -/
theorem copyStep_eq (s : State) :
    copyStep s = { copyByte s with
      copyRemaining := s.copyRemaining - 1
      phase := if s.copyRemaining - 1 = 0 then nextTokenPhase s.ctrl s.bitIndex else s.phase } := by
  simp only [copyStep]
  split
  · simp [State.toNextToken, State.setPhase]
  · simp

/-- In COPY the step is `copyStep`, whatever the input. -/
theorem step_of_copy {s : State} (hp : s.phase = .copy) : step s = .next (copyStep s) := by
  simp only [step, State.fetch, hp]

/-! ### How a step ends a run (42_compressed_path.md R114) -/

/-- What a step does to the run's end: it goes on, or it ends the run in one of the ways of its phase. -/
inductive StepEnd (s t : State) : Prop where
  /-- The run goes on, with no result. -/
  | goesOn (hp : t.phase ≠ .done) (hr : t.result = s.result)
  /-- The header is in error (40_header_parser.md R85, R86). -/
  | headerError (hp : s.phase = .header) (e : RunError) (hr : t.result = some (.err e))
  /-- The pass-through is at its end (41_uncompressed_path.md R95). -/
  | passThroughDone (hp : s.phase = .pass) (ht : t = passEndStep s)
  /-- The token is the sentinel (42_compressed_path.md R108). -/
  | sentinel (hp : s.phase = .ref) (rawLen : Nibble) (ht : t = (s.storeToken s.w rawLen).finish .sentinel)
  /-- The input lacks the next unit (42_compressed_path.md R112). -/
  | soft (hl : s.LacksUnit) (ht : t = softTerminateStep s)
  /-- The token breaks the strict rule (42_compressed_path.md R107). -/
  | strict (hp : s.phase = .ref) (hs : s.params.strictRefs = true)
      (hr : t.result = some (.err .invalidDictionaryReference))

/-- The token after one that is complete is read in CTRL, LIT or REF: it ends no run. -/
theorem nextTokenPhase_ne_done (c : Byte) (i : Nat) : nextTokenPhase c i ≠ .done := by
  rcases nextTokenPhase_cases c i with h | h | h <;> simp [h]

/-- The HEADER step raises an error, or enters the payload of a legal kind. -/
theorem headerStep_end {s : State} (hp : s.phase = .header) (h : RawHeader) : StepEnd s (headerStep h s) := by
  rcases headerStep_cases h s with ⟨_, _, he⟩ | ⟨_, he⟩ | ⟨k, _, _, he⟩ | ⟨k, _, _, he⟩
  · exact .headerError hp _ (by rw [he]; rfl)
  · exact .headerError hp _ (by rw [he]; rfl)
  · exact .headerError hp _ (by rw [he]; rfl)
  · rw [he]
    cases k with
    | compressed => exact .goesOn (by simp [State.enterPayload]) rfl
    | uncompressed => exact .goesOn (by simp [State.enterPayload]) rfl

/-- The REF step on a token ends the run at the sentinel or by the strict error; a copy goes on. -/
theorem tokenStep_end {s : State} (hp : s.phase = .ref) (offset : DictIndex) (rawLen : Nibble) :
    StepEnd s (tokenStep offset rawLen s) := by
  rcases tokenStep_cases offset rawLen s with ⟨rfl, he⟩ | ⟨_, hv, he⟩ | ⟨_, _, he⟩
  · exact .sentinel hp rawLen he
  · have hs : s.params.strictRefs = true := by
      simp only [State.strictViolation, Bool.and_eq_true] at hv
      exact hv.1.1
    exact .strict hp hs (by rw [he]; rfl)
  · rw [he]
    exact .goesOn nofun rfl

/-- Every step goes on or ends the run in one of those ways. -/
theorem step_end {s t : State} (h : step s = .next t) : StepEnd s t := by
  cases step_cases h with
  | shortHeader hp => exact .headerError hp _ rfl
  | header hp _ hd => exact headerStep_end hp hd
  | raw hp => exact .goesOn (by simp [hp]) rfl
  | passEnd hp => exact .passThroughDone hp rfl
  | ctrl => exact .goesOn (by simp [nextTokenPhase_ne_done]) rfl
  | lit => exact .goesOn (by simp [nextTokenPhase_ne_done]) rfl
  | token hp => exact tokenStep_end hp _ _
  | softByte hp ha =>
    have hlack := inAvail_eq_false_iff.1 ha
    exact .soft (hp.imp (⟨·, hlack⟩) fun hp => .inl ⟨hp, hlack⟩) rfl
  | softToken hp ha => exact .soft (.inr (.inr ⟨hp, inAvail_eq_false_iff.1 ha⟩)) rfl
  | copy hp =>
    refine .goesOn ?_ (by simp [copyStep_frame])
    rcases copyStep_cases s with ⟨_, he⟩ | ⟨_, he⟩
    · simp [he, nextTokenPhase_ne_done]
    · simp [he, hp]

end Sys2Proof.Machine

open Sys2Proof Sys2Proof.Machine

/-- Settles O12: the two branches are `CTRL` of the byte at the cursor and soft termination. -/
theorem controlStepRule : Obligations.ControlStepRule := by
  intro s hp hb
  split
  · exact step_of_controlByte hp ‹_› hb
  · exact step_of_lacksUnit (.inl ⟨hp, Nat.not_le.1 ‹_›⟩)

/-- Settles O13: the two branches are `LIT` of the byte at the cursor and soft termination. -/
theorem literalStepRule : Obligations.LiteralStepRule := by
  intro s hp hb
  split
  · refine ⟨_, ?_, Memory.read_write_same _ _ _, fun a ha => Memory.read_write_other _ _ ha⟩
    rw [step_of_literalByte hp ‹_› hb, produce_eq]
    rfl
  · exact step_of_lacksUnit (.inr (.inl ⟨hp, Nat.not_le.1 ‹_›⟩))

/-- Settles O15. The byte is what `DictRead(r)` answers; the premise makes it the cell's value where `r` is written. -/
theorem copyStepRule : Obligations.CopyStepRule := by
  intro s hp _ hvalue
  refine ⟨(s.dictRead s.r).1, _, (s.dictRead s.r).2.draws, ?_, fun hw => ?_, fun hw f hf => ?_,
    Memory.read_write_same _ _ _, fun a ha => Memory.read_write_other _ _ ha⟩
  · rw [step_of_copy hp, copyStep_eq, copyByte_eq, hp]
    rfl
  · exact read_eq_dictRead_of_written (written_iff.2 hw) (hvalue hw)
  · have hunwritten : s.written s.r = false := Bool.eq_false_iff.2 fun h => hw (written_iff.1 h)
    rw [dictRead_of_fill hunwritten hf]

/-- Settles O30: a step that lacks its input terminates softly, and no other end of a run gives that reason. -/
theorem softTermination : Obligations.SoftTermination := by
  refine ⟨fun s hlack => step_of_lacksUnit hlack, fun s t bytes h hnone hok hreason => ?_⟩
  cases step_end h with
  | goesOn _ hr => simp [hr, hnone] at hok
  | headerError _ _ hr => simp [hr] at hok
  | passThroughDone _ ht => simp [ht, passEndStep] at hreason
  | sentinel _ _ ht => simp [ht] at hreason
  | soft hlack => exact hlack
  | strict _ _ hr => simp [hr] at hok

/-- Settles O31: of the ends of a run, those of a header and of the pass-through need another phase. -/
theorem compressedEndsOnlyThreeWays : Obligations.CompressedEndsOnlyThreeWays := by
  intro s t hpath h hdone
  cases step_end h with
  | goesOn hp => exact absurd hdone hp
  | headerError hp => simp [hp, Phase.inCompressedPath] at hpath
  | passThroughDone hp => simp [hp, Phase.inCompressedPath] at hpath
  | sentinel hp _ ht => exact .inl (by simp [hp, ht])
  | soft hlack ht =>
    subst ht
    refine .inr (.inl ⟨rfl, rfl, ?_⟩)
    rcases hlack with ⟨hp, ha⟩ | ⟨hp, ha⟩ | ⟨hp, ha⟩ <;> simpa [hp] using ha
  | strict hp hs hr => exact .inr (.inr ⟨hp, hs, hr⟩)

end

section
/-!
PROOFS. The decoder and the encoder undo one another, and what the decoder refuses (30_encoding.md sections 2 to 5).
-/

namespace Sys2Proof

/-! ### The HEADER format (30_encoding.md R66, R80) -/

/-- The bytes a header was read from are its fields' bytes, followed by what was left (40_header_parser.md R87). -/
theorem eq_encodeHeader_of_readHeader {bytes rest : List Byte} {h : RawHeader}
    (hr : readHeader bytes = some (h, rest)) : bytes = encodeHeader h ++ rest := by
  unfold readHeader at hr
  split at hr
  · cases hr
    simp only [encodeHeader, le32Bytes_le32]
    rfl
  · cases hr

/-- The kind field is bytes 8 to 11 (30_encoding.md R66). -/
theorem kindBytes_of_readHeader {bytes rest : List Byte} {h : RawHeader}
    (hr : readHeader bytes = some (h, rest)) : (bytes.drop 8).take 4 = le32Bytes h.kindRaw := by
  rw [eq_encodeHeader_of_readHeader hr]
  rfl

/-- A u32 is determined by its bytes (20_memory.md R47). -/
theorem le32Bytes_inj {v v' : Word32} : le32Bytes v = le32Bytes v' ↔ v = v' := by
  refine ⟨fun h => ?_, congrArg le32Bytes⟩
  simp only [le32Bytes, List.cons.injEq] at h
  obtain ⟨h0, h1, h2, h3, _⟩ := h
  rw [← le32_bytes v, h0, h1, h2, h3, le32_bytes]

/-- A header selects a row exactly when its kind field is a magic; the row's encoding is the header's bytes. -/
theorem headerInstr_eq_ok {h : RawHeader} {i : Instr} (hi : headerInstr h = .ok i) (w : DictIndex) :
    i.encode = encodeHeader h ∧ i.format = .header ∧ i.selectedAt w = true := by
  obtain ⟨size, rawSize, kindRaw, checksum⟩ := h
  unfold headerInstr at hi
  split at hi
  · rename_i hk
    cases hk
    cases hi
    exact ⟨rfl, rfl, rfl⟩
  · split at hi
    · rename_i hk
      cases hk
      cases hi
      exact ⟨rfl, rfl, rfl⟩
    · cases hi

/-- A header is refused exactly when its kind field is neither magic (30_encoding.md R68). -/
theorem headerInstr_isError_iff {h : RawHeader} :
    (∃ e, headerInstr h = .error e) ↔ h.kindRaw ≠ magicCompressed ∧ h.kindRaw ≠ magicUncompressed := by
  unfold headerInstr
  split
  · simp [*]
  · split <;> simp [*]

/-- A whole header decodes as the row it selects, or is refused with it. -/
theorem decodeHeader_of_readHeader {bytes rest : List Byte} {h : RawHeader}
    (hr : readHeader bytes = some (h, rest)) :
    decodeHeader bytes = (headerInstr h).map fun i => (i, rest) := by
  cases hi : headerInstr h <;> simp [decodeHeader, hr, hi, Except.map]

/-- Fewer than 16 bytes are no header. -/
theorem readHeader_of_length_lt {bytes : List Byte} (h : bytes.length < 16) : readHeader bytes = none := by
  cases hr : readHeader bytes with
  | none => rfl
  | some read => exact absurd (Machine.length_of_readHeader hr) (Nat.not_le.2 h)

/-! ### The REFERENCE format (30_encoding.md R74, R76) -/

/-- The bytes of a token read from two bytes are those bytes (20_memory.md R48). -/
theorem be16Bytes_be16 (b0 b1 : Byte) : be16Bytes (be16 b0 b1) = [b0, b1] := by
  have hhigh : (be16 b0 b1).extractLsb' 8 8 = b0 := extractLsb'_append_upper b0 b1
  have hlow : (be16 b0 b1).extractLsb' 0 8 = b1 := extractLsb'_append_lower b0 b1
  rw [be16Bytes, hhigh, hlow]

/-- The token of `REF` and `END` decodes to the row that its offset selects at `w`. -/
theorem decodeReference_be16Bytes (w : DictIndex) (t : Token) (rest : List Byte) :
    decodeReference w (be16Bytes t ++ rest) = .ok (referenceInstr w t, rest) := by
  simp only [be16Bytes, List.cons_append, List.nil_append, decodeReference, be16_bytes]

/-- Whichever row a token selects, its encoding is the token's bytes. -/
theorem referenceInstr_spec (w : DictIndex) (t : Token) :
    (referenceInstr w t).encode = be16Bytes t ∧ (referenceInstr w t).format = .reference ∧
      (referenceInstr w t).selectedAt w = true := by
  unfold referenceInstr
  split
  · exact ⟨congrArg be16Bytes (mkToken_fields t), rfl, decide_eq_true ‹_›⟩
  · exact ⟨congrArg be16Bytes (mkToken_fields t), rfl, decide_eq_true ‹_›⟩

/-! ### Availability -/

/-- A format of one byte is refused exactly when there is none. -/
theorem decodeByte_isError_iff (f : Format) (mk : Byte → Instr) (bytes : List Byte) :
    (∃ e, decodeByte f mk bytes = .error e) ↔ bytes.length < 1 := by
  cases bytes <;> simp [decodeByte]

/-- A token is refused exactly when there are no two bytes. -/
theorem decodeReference_isError_iff (w : DictIndex) (bytes : List Byte) :
    (∃ e, decodeReference w bytes = .error e) ↔ bytes.length < 2 := by
  rcases bytes with _ | ⟨b0, _ | ⟨b1, rest⟩⟩ <;> simp [decodeReference]

/-- A header is refused exactly when it is short or of illegal kind. -/
theorem decodeHeader_isError_iff (bytes : List Byte) :
    (∃ e, decodeHeader bytes = .error e) ↔
      bytes.length < 16 ∨ ((bytes.drop 8).take 4 ≠ le32Bytes magicCompressed ∧
        (bytes.drop 8).take 4 ≠ le32Bytes magicUncompressed) := by
  by_cases hlen : bytes.length < 16
  · simp [decodeHeader, readHeader_of_length_lt hlen, hlen]
  · obtain ⟨h, rest, hr⟩ := Machine.readHeader_isSome (Nat.not_lt.1 hlen)
    have herror : (∃ e, decodeHeader bytes = .error e) ↔ ∃ e, headerInstr h = .error e := by
      rw [decodeHeader_of_readHeader hr]
      cases headerInstr h <;> simp [Except.map]
    rw [herror, headerInstr_isError_iff, kindBytes_of_readHeader hr]
    simp [hlen, le32Bytes_inj]

end Sys2Proof

open Sys2Proof

/-- Settles O1, row by row: a header's fields and a token's fields are read back from their bytes. -/
theorem decodeOfEncode : Obligations.DecodeOfEncode := by
  intro w i rest hsel
  cases i with
  | hdrLzfu size rawSize checksum => exact decodeHeader_of_readHeader (readHeader_encodeHeader _ rest)
  | hdrMela size rawSize checksum => exact decodeHeader_of_readHeader (readHeader_encodeHeader _ rest)
  | raw b => rfl
  | ctrl c => rfl
  | lit b => rfl
  | ref offset rawLen =>
    have hne : offset ≠ w := by simpa [Instr.selectedAt] using hsel
    refine (decodeReference_be16Bytes w (mkToken offset rawLen) rest).trans ?_
    simp [referenceInstr, hne]
  | endRef offset rawLen =>
    have heq : offset = w := by simpa [Instr.selectedAt] using hsel
    refine (decodeReference_be16Bytes w (mkToken offset rawLen) rest).trans ?_
    simp [referenceInstr, heq]

/-- Settles O2, format by format. -/
theorem encodeOfDecode : Obligations.EncodeOfDecode := by
  intro f w bytes rest i h
  cases f with
  | header =>
    replace h : decodeHeader bytes = .ok (i, rest) := h
    by_cases hlen : bytes.length < 16
    · simp [decodeHeader, readHeader_of_length_lt hlen] at h
    · obtain ⟨hd, left, hr⟩ := Machine.readHeader_isSome (Nat.not_lt.1 hlen)
      rw [decodeHeader_of_readHeader hr] at h
      cases hi : headerInstr hd with
      | error e => simp [hi, Except.map] at h
      | ok j =>
        rw [hi] at h
        cases h
        obtain ⟨henc, hformat, hsel⟩ := headerInstr_eq_ok hi w
        exact ⟨henc ▸ eq_encodeHeader_of_readHeader hr, hformat, hsel⟩
  | raw =>
    cases bytes with
    | nil => cases h
    | cons b left => cases h; exact ⟨rfl, rfl, rfl⟩
  | control =>
    cases bytes with
    | nil => cases h
    | cons b left => cases h; exact ⟨rfl, rfl, rfl⟩
  | literal =>
    cases bytes with
    | nil => cases h
    | cons b left => cases h; exact ⟨rfl, rfl, rfl⟩
  | reference =>
    rcases bytes with _ | ⟨b0, _ | ⟨b1, left⟩⟩
    · cases h
    · cases h
    · cases h
      obtain ⟨henc, hformat, hsel⟩ := referenceInstr_spec w (be16 b0 b1)
      exact ⟨by rw [henc, be16Bytes_be16]; rfl, hformat, hsel⟩

/-- Settles O3, format by format. -/
theorem decodeRefusesOnlyIllegal : Obligations.DecodeRefusesOnlyIllegal := by
  intro f w bytes
  cases f with
  | header =>
    refine (decodeHeader_isError_iff bytes).trans ?_
    simp only [true_and]
    rfl
  | raw => exact (decodeByte_isError_iff .raw .raw bytes).trans (or_iff_left fun h => nomatch h.1).symm
  | control => exact (decodeByte_isError_iff .control .ctrl bytes).trans (or_iff_left fun h => nomatch h.1).symm
  | literal => exact (decodeByte_isError_iff .literal .lit bytes).trans (or_iff_left fun h => nomatch h.1).symm
  | reference => exact (decodeReference_isError_iff w bytes).trans (or_iff_left fun h => nomatch h.1).symm

/-- Settles O7, by evaluating the decoder on each word. -/
theorem specWordsDecode : Obligations.SpecWordsDecode :=
  ⟨rfl, rfl, rfl, rfl, rfl, rfl, rfl⟩

end

section
/-!
PROOFS. What a step may raise, emit and draw: errors are precise (60_exceptions.md section 2), the output is append only
(10_state.md section 7), and draws happen at two places (70_reset_and_hazards.md section 1).
-/

namespace Sys2Proof.Machine

/-! ### Errors (60_exceptions.md sections 1 and 2) -/

/-- The errors that a step from `s` may raise: the header's, and the strict one. -/
inductive MayRaise (s : State) : RunError → Prop where
  /-- Too short an input or too small a declared size (40_header_parser.md R86, R89). -/
  | size (hp : s.phase = .header) (v : Word32) : MayRaise s (.invalidSize v)
  /-- A kind field that is no magic (40_header_parser.md R88). -/
  | kind (hp : s.phase = .header) (v : Word32) : MayRaise s (.invalidCompType v)
  /-- A reference that breaks the strict rule (42_compressed_path.md R107). -/
  | strict (hp : s.phase = .ref) (hs : s.params.strictRefs = true) : MayRaise s .invalidDictionaryReference

/-- From `s` to `t` the run ends in the error `e`; the output, the dictionary and its registers are as they were. -/
structure RaisesError (s t : State) (e : RunError) : Prop where
  mayRaise : MayRaise s e
  phase_eq : t.phase = .done
  out_eq : t.out = s.out
  dict_eq : t.dict = s.dict
  w_eq : t.w = s.w
  wrapped_eq : t.wrapped = s.wrapped
  r_eq : t.r = s.r
  copyRemaining_eq : t.copyRemaining = s.copyRemaining
  termReason_eq : t.termReason = s.termReason

theorem strictRefs_of_strictViolation {s : State} {offset : DictIndex} (h : s.strictViolation offset = true) :
    s.params.strictRefs = true := by
  simp only [State.strictViolation, Bool.and_eq_true] at h
  exact h.1.1

/-- A HEADER step that ends the run has only to name its error: it writes none of those registers. -/
theorem headerStep_raisesError {h : RawHeader} {s : State} {e : RunError} (hm : MayRaise s e)
    (hdone : (headerStep h s).phase = .done) : RaisesError s (headerStep h s) e := by
  obtain ⟨_, _, hdict, hwrapped, hw, hr, _, _, hcopy, _, hout, hreason, _, _⟩ := headerStep_frame h s
  exact ⟨hm, hdone, hout, hdict, hw, hwrapped, hr, hcopy, hreason⟩

/-- A new error result of a step is one it may raise, and is raised precisely. -/
theorem raisesError_of_step {s t : State} {e : RunError} (h : step s = .next t) (hr : t.result = some (.err e))
    (hnew : s.result ≠ some (.err e)) : RaisesError s t e := by
  cases step_cases h with
  | shortHeader hp =>
    cases hr
    exact ⟨.size hp _, rfl, rfl, rfl, rfl, rfl, rfl, rfl, rfl⟩
  | header hp _ hd =>
    rcases headerStep_cases hd s with ⟨_, _, he⟩ | ⟨_, he⟩ | ⟨k, _, _, he⟩ | ⟨k, _, _, he⟩
    · obtain rfl : _ = e := by simpa [he] using hr
      exact headerStep_raisesError (.size hp _) (by simp [he])
    · obtain rfl : _ = e := by simpa [he] using hr
      exact headerStep_raisesError (.kind hp _) (by simp [he])
    · obtain rfl : _ = e := by simpa [he] using hr
      exact headerStep_raisesError (.size hp _) (by simp [he])
    · exact absurd (by simpa [he] using hr) hnew
  | token hp _ b0 b1 =>
    rcases tokenStep_cases (tokenOffset (be16 b0 b1)) (tokenRawLen (be16 b0 b1)) s with
      ⟨_, he⟩ | ⟨_, hv, he⟩ | ⟨_, _, he⟩
    · simp [he] at hr
    · obtain rfl : _ = e := by simpa [he] using hr
      rw [he]
      exact ⟨.strict hp (strictRefs_of_strictViolation hv), rfl, rfl, rfl, rfl, rfl, rfl, rfl, rfl⟩
    · exact absurd (by simpa [he] using hr) hnew
  | raw => exact absurd hr hnew
  | ctrl => exact absurd hr hnew
  | lit => exact absurd hr hnew
  | copy => exact absurd (by simpa [copyStep_frame] using hr) hnew
  | passEnd => cases hr
  | softByte => cases hr
  | softToken => cases hr

/-! ### Output and draws -/

/-- A step emits nothing, or is a PASS, LIT or COPY step that emits one byte. -/
theorem step_out {s t : State} (h : step s = .next t) :
    t.out = s.out ∨ ((s.phase = .pass ∨ s.phase = .lit ∨ s.phase = .copy) ∧ ∃ b, t.out = s.out ++ [b]) := by
  cases step_cases h with
  | shortHeader => exact .inl rfl
  | header => exact .inl (by simp [headerStep_frame])
  | raw hp => exact .inr ⟨.inl hp, _, rfl⟩
  | passEnd => exact .inl rfl
  | ctrl => exact .inl rfl
  | lit hp => exact .inr ⟨.inr (.inl hp), _, rfl⟩
  | token => exact .inl (by simp [tokenStep_frame])
  | softByte => exact .inl rfl
  | softToken => exact .inl rfl
  | copy hp => exact .inr ⟨.inr (.inr hp), (s.dictRead s.r).1, by simp [copyStep_frame]⟩

end Sys2Proof.Machine

open Sys2Proof Sys2Proof.Machine

/-- Settles O27: of the errors a step may raise, the strict one is REF's. -/
theorem strictErrorOnlyUnderStrictRefs : Obligations.StrictErrorOnlyUnderStrictRefs := by
  intro s t h hnew hr
  have hraised := raisesError_of_step h hr hnew
  cases hraised.mayRaise with
  | strict hp hs => exact ⟨hs, hp, hraised.phase_eq, hraised.out_eq⟩

/-- Settles O28: `Corrupted` is none of the errors a step may raise. -/
theorem corruptedNeverRaised : Obligations.CorruptedNeverRaised := by
  intro s t h hr
  by_contra hnew
  cases (raisesError_of_step h hr hnew).mayRaise

/-- Settles O29: a state without a result has no error yet, so the step raises it. -/
theorem errorsArePrecise : Obligations.ErrorsArePrecise := by
  intro s t e h hnone hr
  obtain ⟨hm, hdone, hout, hdict, hw, hwrapped, hread, hcopy, hreason⟩ := raisesError_of_step h hr (by simp [hnone])
  refine ⟨?_, hdone, hout, hdict, hw, hwrapped, hread, hcopy, hreason⟩
  cases hm with
  | size hp => exact .inl hp
  | kind hp => exact .inl hp
  | strict hp => exact .inr hp

/-- Settles O44, over the cases of a step. -/
theorem outputIsAppendOnly : Obligations.OutputIsAppendOnly :=
  ⟨fun _ _ => rfl, fun _ _ h => step_out h⟩

/-- Settles O46: of the steps only the short header and the dictionary read of a copy touch the draw counter. -/
theorem drawsHappenAtTwoPlaces : Obligations.DrawsHappenAtTwoPlaces := by
  intro s t h
  cases step_cases h with
  | shortHeader hp hn => exact .inr ⟨rfl, .inl ⟨hp, hn⟩⟩
  | header => exact .inl (by simp [headerStep_frame])
  | raw => exact .inl rfl
  | passEnd => exact .inl rfl
  | ctrl => exact .inl rfl
  | lit => exact .inl rfl
  | token => exact .inl (by simp [tokenStep_frame])
  | softByte => exact .inl rfl
  | softToken => exact .inl rfl
  | copy hp =>
    rcases dictRead_cases s s.r with ⟨_, _, hread⟩ | ⟨_, _, _, hread⟩ | ⟨hcell, hfill, hread⟩
    · exact .inl (by simp [copyStep_frame, hread])
    · exact .inl (by simp [copyStep_frame, hread])
    · exact .inr ⟨by simp [copyStep_frame, hread], .inr ⟨hp, hfill, hcell⟩⟩

end

section
/-!
PROOFS. The meaning of each instruction (30_encoding.md section 6): it runs in its phase only, completes there, and
leaves the rest of the state alone; the step runs it when the unit at the cursor decodes to it.
-/

namespace Sys2Proof.Machine

/-! ### The meanings (10_state.md R20) -/

/-- What an instruction does in the phase that enables it. -/
def effect (i : Instr) (s : State) : State :=
  match i with
  | .hdrLzfu size rawSize checksum => headerStep ⟨size, rawSize, magicCompressed, checksum⟩ s
  | .hdrMela size rawSize checksum => headerStep ⟨size, rawSize, magicUncompressed, checksum⟩ s
  | .raw b => (s.emit b).advanceCur 1
  | .ctrl c => ({ s.advanceCur 1 with ctrl := c, bitIndex := 0 } : State).toNextToken
  | .lit b => ((s.advanceCur 1).produce b).advanceBit.toNextToken
  | .ref offset rawLen => tokenStep offset rawLen s
  | .endRef offset rawLen => tokenStep offset rawLen s

/-- Every instruction is its effect, enabled in its phase. -/
theorem exec_eq_enabledIn (i : Instr) (s : State) : exec i s = s.enabledIn i.phase (effect i s) := by
  cases i <;> rfl

/-- In its phase an instruction goes to its effect. -/
theorem exec_of_phase {i : Instr} {s : State} (hp : s.phase = i.phase) : exec i s = .next (effect i s) := by
  rw [exec_eq_enabledIn, State.enabledIn, if_pos hp]

/-- Outside its phase an instruction stops by name (log 8). -/
theorem exec_of_phase_ne {i : Instr} {s : State} (hp : s.phase ≠ i.phase) : exec i s = .fault .notEnabled := by
  rw [exec_eq_enabledIn, State.enabledIn, if_neg hp]

/-- An instruction goes to a state only in its phase, and then to its effect. -/
theorem exec_eq_next {i : Instr} {s t : State} (h : exec i s = .next t) : s.phase = i.phase ∧ effect i s = t :=
  enabledIn_eq_next.1 (exec_eq_enabledIn i s ▸ h)

/-- DONE enables no instruction. -/
theorem instr_phase_ne_done (i : Instr) : i.phase ≠ .done := by
  cases i <;> simp [Instr.phase]

/-! ### The step runs the instruction it has fetched -/

theorem step_of_fetch {s : State} {i : Instr} (h : s.fetch = .instr i) : step s = exec i s := by
  simp only [step, h]

theorem fetchUnit_of_decode {s : State} {f : Format} {i : Instr} {rest : List Byte}
    (hd : decode f s.w s.inputRest = .ok (i, rest)) : s.fetchUnit f = .instr i := by
  simp only [State.fetchUnit, hd]

/-! ### The reference token (42_compressed_path.md R106 to R108) -/

/-- The strict check in numbers (42_compressed_path.md R107). -/
theorem strictViolation_iff {s : State} {offset : DictIndex} :
    s.strictViolation offset = true ↔
      s.params.strictRefs = true ∧ s.wrapped = false ∧ s.w.toNat < offset.toNat := by
  simp [State.strictViolation, BitVec.lt_def, and_assoc]

/-- The sentinel is tested first, then the strict check. -/
theorem tokenStep_eq (offset : DictIndex) (rawLen : Nibble) (s : State) :
    tokenStep offset rawLen s =
      if offset = s.w then (s.storeToken offset rawLen).finish .sentinel
      else if s.params.strictRefs = true ∧ s.wrapped = false ∧ s.w.toNat < offset.toNat then
        (s.storeToken offset rawLen).raise .invalidDictionaryReference
      else (s.storeToken offset rawLen).startCopy offset rawLen := by
  simp only [tokenStep, State.isSentinel, strictViolation_iff, decide_eq_true_eq]

/-- What a reference token leaves alone where it ends the run, and where it starts a copy. -/
theorem tokenStep_exit_frame (offset : DictIndex) (rawLen : Nibble) (s : State) :
    ((tokenStep offset rawLen s).phase = .done → (tokenStep offset rawLen s).r = s.r ∧
      (tokenStep offset rawLen s).copyRemaining = s.copyRemaining ∧
      (tokenStep offset rawLen s).bitIndex = s.bitIndex) ∧
    ((tokenStep offset rawLen s).phase = .copy → (tokenStep offset rawLen s).result = s.result ∧
      (tokenStep offset rawLen s).termReason = s.termReason) := by
  rcases tokenStep_cases offset rawLen s with ⟨_, he⟩ | ⟨_, _, he⟩ | ⟨_, _, he⟩
  · simp [he]
  · simp [he]
  · simp [he]

/-- A literal is produced (42_compressed_path.md R104). -/
theorem producesByte_lit (b : Byte) (s : State) : ProducesByte s (effect (.lit b) s) b :=
  ⟨rfl, rfl, rfl, rfl⟩

end Sys2Proof.Machine

open Sys2Proof Sys2Proof.Machine

/-- Settles O33. -/
theorem instructionsRunInTheirPhaseOnly : Obligations.InstructionsRunInTheirPhaseOnly :=
  fun _ _ => ⟨fun hp => ⟨_, exec_of_phase hp⟩, exec_of_phase_ne⟩

/-- Settles O32: DONE fetches nothing and enables no instruction. -/
theorem afterDoneNothingRuns : Obligations.AfterDoneNothingRuns := by
  intro s hp
  refine ⟨by simp only [step, State.fetch, hp], fun i => exec_of_phase_ne ?_⟩
  rw [hp]
  exact (instr_phase_ne_done i).symm

/-- Settles O34: the phase selects the format, and an available unit is fetched as what it decodes to. -/
theorem stepRunsDecodedInstruction : Obligations.StepRunsDecodedInstruction := by
  intro s i rest
  refine ⟨fun hp hn hd => step_of_fetch ?_, fun hp hn hd => step_of_fetch ?_, fun hp ha hd => step_of_fetch ?_,
    fun hp ha hd => step_of_fetch ?_, fun hp ha hd => step_of_fetch ?_⟩
  · have hlen : ¬ s.input.length - s.cur < 16 := by omega
    simp only [State.fetch, hp, hlen, if_false]
    exact fetchUnit_of_decode hd
  · simp only [State.fetch, hp, hn, if_true]
    exact fetchUnit_of_decode hd
  · simp only [State.fetch, hp]
    exact fetchBounded_of_decode ha hd
  · simp only [State.fetch, hp]
    exact fetchBounded_of_decode ha hd
  · simp only [State.fetch, hp]
    exact fetchBounded_of_decode ha hd

/-! ### Every instruction completes -/

/-- Settles O16: a size of 0x10 or more passes the check of either order. -/
theorem hdrLzfuCompletes : Obligations.HdrLzfuCompletes := by
  intro size rawSize checksum s hp hsize
  have hlegal : sizeTooSmall .compressed size = false := by
    simpa [sizeTooSmall_compressed, BitVec.le_def] using hsize
  rw [exec_of_phase hp, effect, headerStep_of_legalSize kindOf_magicCompressed hlegal]
  rfl

/-- Settles O17: a size of 0x0C or more passes the check of either order. -/
theorem hdrMelaCompletes : Obligations.HdrMelaCompletes := by
  intro size rawSize checksum s hp hsize
  have hlegal : sizeTooSmall .uncompressed size = false := by
    simpa [sizeTooSmall_uncompressed, BitVec.le_def] using hsize
  rw [exec_of_phase hp, effect, headerStep_of_legalSize kindOf_magicUncompressed hlegal]
  rfl

/-- Settles O18. -/
theorem rawCompletes : Obligations.RawCompletes :=
  fun _ _ hp => exec_of_phase hp

/-- Settles O19: token 0 is not past the group, so its control bit selects the phase. -/
theorem ctrlCompletes : Obligations.CtrlCompletes :=
  fun _ _ hp => exec_of_phase hp

/-- Settles O20: the literal is produced, and the group is complete where the token was its eighth. -/
theorem litCompletes : Obligations.LitCompletes := by
  intro b s hp
  have hprod := producesByte_lit b s
  refine ⟨_, exec_of_phase hp, hprod.out_eq, rfl, hprod.read_same, ?_, hprod.wrapped_of_last, rfl, ?_⟩
  · have hlt : s.w.toNat < 4096 := s.w.isLt
    rw [hprod.w_toNat]
    split <;> omega
  · have height : s.bitIndex + 1 = 8 ↔ s.bitIndex = 7 := by omega
    rw [← if_congr height rfl rfl]
    rfl

/-- Settles O21: past the sentinel test and the strict check the copy starts. -/
theorem refCompletes : Obligations.RefCompletes := by
  intro offset rawLen s hp hne hpass
  have hstrict : ¬ (s.params.strictRefs = true ∧ s.wrapped = false ∧ s.w.toNat < offset.toNat) := by
    rintro ⟨hs, hw, hlt⟩
    rcases hpass with h | h | h
    · simp [hs] at h
    · simp [hw] at h
    · omega
  rw [exec_of_phase hp, effect, tokenStep_eq, if_neg hne, if_neg hstrict]
  rfl

/-- Settles O22: the sentinel is tested before anything else. -/
theorem endCompletes : Obligations.EndCompletes := by
  intro rawLen s hp
  rw [exec_of_phase hp, effect, tokenStep_eq, if_pos rfl]
  rfl

/-- Settles O26: an offset above the write position is not the sentinel. -/
theorem strictReferenceRaises : Obligations.StrictReferenceRaises := by
  intro offset rawLen s hp hs hw hlt
  have hne : offset ≠ s.w := fun h => Nat.lt_irrefl _ (h ▸ hlt)
  rw [exec_of_phase hp, effect, tokenStep_eq, if_neg hne, if_pos ⟨hs, hw, hlt⟩]
  rfl

/-! ### What instructions leave alone -/

/-- Settles O38: both rows are the HEADER step, and its frame is `headerStep_frame`. -/
theorem headerInstructionsFrame : Obligations.HeaderInstructionsFrame := by
  intro i s t hf h
  obtain ⟨_, rfl⟩ := exec_eq_next h
  cases i with
  | hdrLzfu => simp [effect, headerStep_frame]
  | hdrMela => simp [effect, headerStep_frame]
  | _ => simp [Instr.format] at hf

/-- Settles O39, by the form of the instruction. -/
theorem rawAndCtrlFrame : Obligations.RawAndCtrlFrame := by
  intro i s t hf h
  obtain ⟨_, rfl⟩ := exec_eq_next h
  cases i with
  | raw => simp [effect, Instr.format]
  | ctrl => simp [effect, Instr.format]
  | _ => simp [Instr.format] at hf

/-- Settles O40: the one cell a literal writes is the one at the write position. -/
theorem litFrame : Obligations.LitFrame := by
  intro b s t h
  obtain ⟨_, rfl⟩ := exec_eq_next h
  exact ⟨rfl, rfl, rfl, rfl, fun a ha => (producesByte_lit b s).read_other ha, rfl, rfl, rfl, rfl, rfl, rfl, rfl⟩

/-- Settles O41: both rows are the REF step on their token. -/
theorem referenceInstructionsFrame : Obligations.ReferenceInstructionsFrame := by
  intro i s t hf h
  obtain ⟨_, rfl⟩ := exec_eq_next h
  cases i with
  | ref offset rawLen => simpa [effect, tokenStep_frame] using tokenStep_exit_frame offset rawLen s
  | endRef offset rawLen => simpa [effect, tokenStep_frame] using tokenStep_exit_frame offset rawLen s
  | _ => simp [Instr.format] at hf

end

section
/-!
PROOFS. The HEADER step and the REF step whole (40_header_parser.md R85, 42_compressed_path.md R106), and the seed table
(10_state.md R26).
-/

namespace Sys2Proof.Machine

/-! ### The HEADER step (40_header_parser.md R85) -/

/-- Byte `i` from the cursor on is input byte `cur + i`. -/
theorem inputRest_getD (s : State) (i : Nat) (d : Byte) : s.inputRest.getD i d = s.input.getD (s.cur + i) d := by
  simp [State.inputRest, List.getD_eq_getElem?_getD]

/-- The general minimum in numbers (00_scope.md R6). -/
theorem lt_minSizeAny_iff {size : Word32} : size < minSizeAny ↔ size.toNat < 0x0C := by
  simp [minSizeAny, BitVec.lt_def]

/-- The HEADER step, its checks in the order they are made, sizes told in numbers. -/
theorem headerStep_eq (h : RawHeader) (s : State) :
    headerStep h s =
      if s.params.headerErrorOrder = .sizeFirst ∧ h.compressedSize.toNat < 0x0C then
        (s.storeHeader h).raise (.invalidSize h.compressedSize)
      else if h.kindRaw = magicCompressed then
        if h.compressedSize.toNat < 0x10 then
          ((s.storeHeader h).setKind .compressed).raise (.invalidSize h.compressedSize)
        else ((s.storeHeader h).setKind .compressed).enterPayload .compressed
      else if h.kindRaw = magicUncompressed then
        if h.compressedSize.toNat < 0x0C then
          ((s.storeHeader h).setKind .uncompressed).raise (.invalidSize h.compressedSize)
        else ((s.storeHeader h).setKind .uncompressed).enterPayload .uncompressed
      else (s.storeHeader h).raise (.invalidCompType h.kindRaw) := by
  simp only [headerStep, lt_minSizeAny_iff, kindOf]
  by_cases hlzfu : h.kindRaw = magicCompressed
  · simp [hlzfu, State.checkSize, sizeTooSmall_compressed]
  · by_cases hmela : h.kindRaw = magicUncompressed
    · have hother : magicUncompressed ≠ magicCompressed := by decide
      simp [hmela, hother, State.checkSize, sizeTooSmall_uncompressed]
    · simp [hlzfu, hmela]

/-- The `bound` of a Compressed header by cases of `LOOP_BOUND` (10_state.md R23). -/
theorem loopBoundValue_eq_ite (b : LoopBound) (n : Nat) (size : Word32) :
    loopBoundValue b n size = if b = .availableInput then n else min n (4 + size.toNat) := by
  cases b <;> rfl

/-! ### The REF step (42_compressed_path.md R106) -/

/-- Two bytes before `N`, the input from the cursor on begins with them. -/
theorem inputRest_eq_cons_cons {s : State} (hn : s.cur + 2 ≤ s.input.length) :
    s.inputRest = s.input.getD s.cur 0#8 :: s.input.getD (s.cur + 1) 0#8 :: s.input.drop (s.cur + 2) := by
  have hlt : s.cur + 1 < s.input.length := hn
  rw [inputRest_eq_cons (by omega), List.drop_eq_getElem_cons hlt, List.getElem_eq_getD]

/-- A readable token is the REF step on its fields, whichever row it selects. -/
theorem step_of_tokenBytes {s : State} {b0 b1 : Byte} {rest : List Byte} (hp : s.phase = .ref)
    (ha : s.cur + 2 ≤ s.bound) (hr : s.inputRest = b0 :: b1 :: rest) :
    step s = .next (tokenStep (tokenOffset (be16 b0 b1)) (tokenRawLen (be16 b0 b1)) s) := by
  have hfetch : s.fetch = .instr (referenceInstr s.w (be16 b0 b1)) := by
    simp only [State.fetch, hp]
    exact fetchBounded_of_decode ha (by rw [hr]; rfl)
  rw [step_of_fetch hfetch, exec_referenceInstr hp]

/-- Storing the fields of a token stores the token (30_encoding.md R75). -/
theorem storeToken_fields (s : State) (t : Token) :
    s.storeToken (tokenOffset t) (tokenRawLen t) = { s.advanceCur 2 with tok := t } := by
  rw [State.storeToken, mkToken_fields]

/-- The length of a copy as the token's low four bits and two (30_encoding.md R74, R75). -/
theorem actualLength_tokenRawLen (t : Token) : actualLength (tokenRawLen t) = t.toNat % 16 + 2 := by
  rw [actualLength, tokenRawLen_toNat]

end Sys2Proof.Machine

open Sys2Proof Sys2Proof.Machine

/-- Settles O10: the step is `headerStep` on the four fields, each read as bytes of the input. -/
theorem headerStepRule : Obligations.HeaderStepRule := by
  intro s hp
  refine ⟨fun hn => ⟨s.drawU32.1, s.draws + 1, step_of_shortInput hp hn⟩, fun hn => ?_⟩
  have hread := readHeader_eq_headerFields (bytes := s.inputRest) (by rwa [inputRest_length])
  simp only [headerField, inputRest_getD] at hread
  rw [step_of_header hp hread, headerStep_eq]
  simp only [← loopBoundValue_eq_ite]
  rfl

/-- Settles O25: the step is `headerStep`, and neither magic is the kind field's. -/
theorem illegalKindRaises : Obligations.IllegalKindRaises := by
  intro s h rest hp hr hlzfu hmela
  refine ⟨headerStep h s, step_of_header hp hr, ?_⟩
  rw [headerStep_eq, if_neg (c := h.kindRaw = magicCompressed) hlzfu, if_neg (c := h.kindRaw = magicUncompressed) hmela]
  split
  · exact ⟨rfl, rfl, rfl⟩
  · exact ⟨rfl, rfl, rfl⟩

/-- Settles O14: an available token is `tokenStep` on its fields, and a lacking one ends the run softly. -/
theorem referenceStepRule : Obligations.ReferenceStepRule := by
  intro s hp hb
  split
  · rw [step_of_tokenBytes hp ‹_› (inputRest_eq_cons_cons (by omega)), tokenStep_eq, storeToken_fields,
      State.startCopy, actualLength_tokenRawLen]
    rfl
  · exact step_of_lacksUnit (.inr (.inr ⟨hp, Nat.not_le.1 ‹_›⟩))

/-- Settles O9: the table's bytes are taken up one by one, row by row. -/
theorem seedTableContents : Obligations.SeedTableContents := by
  refine ⟨seed_length, ?_⟩
  simp only [seed, List.foldl_append, List.foldl_cons, List.foldl_nil, Nat.reduceMul, Nat.reduceAdd,
    BitVec.reduceToNat]

end

section
/-!
PROOFS. The invariant: the start meets it, every step keeps it, and in every state that meets it a step is enabled until
DONE. The clauses that hold in every phase are kept one by one; those of the phases by `PhaseInv`.
-/

namespace Sys2Proof.Machine

/-! ### The dictionary and `Written` (10_state.md R25, R27) -/

/-- A byte produced makes its cell, and no other, written. -/
theorem ProducesByte.written {s t : State} {v : Byte} (h : ProducesByte s t v) (i : DictIndex) :
    t.written i = (s.written i || decide (i = s.w)) := by
  rw [← produce_written s v i, State.written, h.w_eq, h.wrapped_eq]
  rfl

section Step
variable {s t : State} (h : step s = .next t)
include h

/-- Every step keeps the dictionary's listing canonical (log 4). -/
theorem step_keeps_dictCanonical (hd : s.dict.wf) : t.dict.wf := by
  rcases step_keeps_dict_or_produces h with ⟨_, _, hdict⟩ | ⟨_, v, hv⟩
  · rwa [hdict]
  · rw [hv.dict_eq]
    exact Memory.write_wf v s.w.isLt hd

/-- Every step keeps the written cells those that have a value. -/
theorem step_keeps_writtenHasValue (hd : ∀ i : DictIndex, (s.dict.read i.toNat).isSome = s.written i)
    (i : DictIndex) : (t.dict.read i.toNat).isSome = t.written i := by
  rcases step_keeps_dict_or_produces h with ⟨hw, hwrapped, hdict⟩ | ⟨_, v, hv⟩
  · simpa [State.written, hw, hwrapped, hdict] using hd i
  · rw [hv.written]
    by_cases hi : i = s.w
    · simp [hi, hv.read_same]
    · rw [hv.read_other (fun hn => hi (BitVec.eq_of_toNat_eq hn)), hd i]
      simp [hi]

end Step

/-! ### What the HEADER step goes to (40_header_parser.md R90) -/

theorem loopBoundValue_le (b : LoopBound) (n : Nat) (size : Word32) : loopBoundValue b n size ≤ n := by
  cases b with
  | availableInput => exact Nat.le_refl n
  | declaredSize => exact Nat.min_le_left ..

/-- `bound` as a Compressed header sets it lies beyond the header (10_state.md R23). -/
theorem le_loopBoundValue (b : LoopBound) {n : Nat} {size : Word32} (hn : 16 ≤ n)
    (hsize : sizeTooSmall .compressed size = false) : 16 ≤ loopBoundValue b n size := by
  have hlegal : 16 ≤ size.toNat := by simpa [sizeTooSmall_compressed] using hsize
  cases b with
  | availableInput => exact hn
  | declaredSize => exact Nat.le_min.2 ⟨hn, by omega⟩

/-- The ways out of the HEADER step: an error, the pass-through, or the compressed path. -/
inductive HeaderExit (h : RawHeader) (s : State) : Prop where
  /-- The header is in error, and `bound` is not written. -/
  | failed (hp : (headerStep h s).phase = .done) (hb : (headerStep h s).bound = s.bound) (e : RunError)
      (hr : (headerStep h s).result = some (.err e))
  /-- An Uncompressed header (40_header_parser.md R90). -/
  | passThrough (he : headerStep h s = ((s.storeHeader h).setKind .uncompressed).setPhase .pass)
  /-- A Compressed header (40_header_parser.md R90). -/
  | compressedPath (hsize : sizeTooSmall .compressed h.compressedSize = false)
      (he : headerStep h s = { (s.storeHeader h).setKind .compressed with
        bound := loopBoundValue s.params.loopBound s.input.length h.compressedSize
        phase := .ctrl })

theorem headerStep_exit (h : RawHeader) (s : State) : HeaderExit h s := by
  rcases headerStep_cases h s with ⟨_, _, he⟩ | ⟨_, he⟩ | ⟨k, _, _, he⟩ | ⟨k, _, hsize, he⟩
  · exact .failed (by simp [he]) (by simp [he]) _ (by rw [he]; rfl)
  · exact .failed (by simp [he]) (by simp [he]) _ (by rw [he]; rfl)
  · exact .failed (by simp [he]) (by simp [he]) _ (by rw [he]; rfl)
  · cases k with
    | uncompressed => exact .passThrough he
    | compressed => exact .compressedPath hsize he

/-! ### `bound` (10_state.md R18, R23) -/

/-- After the header no step writes `bound` or the header registers. -/
theorem step_keeps_bound_hdr {s t : State} (h : step s = .next t) (hp : s.phase ≠ .header) :
    t.bound = s.bound ∧ t.hdr = s.hdr := by
  cases step_cases h with
  | shortHeader hq => exact absurd hq hp
  | header hq => exact absurd hq hp
  | raw => exact ⟨rfl, rfl⟩
  | passEnd => exact ⟨rfl, rfl⟩
  | ctrl => exact ⟨rfl, rfl⟩
  | lit => exact ⟨rfl, rfl⟩
  | token => simp [tokenStep_frame]
  | softByte => exact ⟨rfl, rfl⟩
  | softToken => exact ⟨rfl, rfl⟩
  | copy => simp [copyStep_frame]

/-- The HEADER step leaves `bound` in the input. -/
theorem headerStep_boundInInput (h : RawHeader) {s : State} (hb : s.bound ≤ s.input.length) :
    (headerStep h s).bound ≤ s.input.length := by
  cases headerStep_exit h s with
  | failed _ hkept => rwa [hkept]
  | passThrough he => rwa [he]
  | compressedPath _ he =>
    rw [he]
    exact loopBoundValue_le ..

theorem step_keeps_boundInInput {s t : State} (h : step s = .next t) (hb : s.bound ≤ s.input.length) :
    t.bound ≤ t.input.length := by
  rw [(step_params_input h).2]
  by_cases hp : s.phase = .header
  · cases step_cases h with
    | shortHeader => exact hb
    | header => exact headerStep_boundInInput _ hb
    | _ => simp_all
  · rwa [(step_keeps_bound_hdr h hp).1]

/-! ### The index of the next token (10_state.md R33) -/

/-- Every step that completes a token was at one of the eight. -/
theorem step_keeps_bitIndexRange {s t : State} (hs : s.Inv) (h : step s = .next t) : t.bitIndex ≤ 8 := by
  have hkept := hs.bitIndexRange
  cases step_cases h with
  | shortHeader => exact hkept
  | header => simpa [headerStep_frame] using hkept
  | raw => exact hkept
  | passEnd => exact hkept
  | ctrl => exact Nat.zero_le 8
  | lit hp => exact (hs.litBit hp).1
  | token hp _ b0 b1 =>
    have hbit : s.bitIndex < 8 := (hs.refBit hp).1
    rcases tokenStep_cases (tokenOffset (be16 b0 b1)) (tokenRawLen (be16 b0 b1)) s with
      ⟨_, he⟩ | ⟨_, _, he⟩ | ⟨_, _, he⟩
    · simpa [he] using hkept
    · simpa [he] using hkept
    · simpa [he] using hbit
  | softByte => exact hkept
  | softToken => exact hkept
  | copy => simpa [copyStep_frame] using hkept

/-! ### The result (10_state.md R35) -/

theorem phase_ne_done_of_step {s t : State} (h : step s = .next t) : s.phase ≠ .done := by
  intro hp
  simp [step, State.fetch, hp] at h

theorem State.Inv.result_eq_none {s : State} (hs : s.Inv) (hp : s.phase ≠ .done) : s.result = none := by
  simpa [hp] using hs.resultAtDone

/-- A step goes on without a result, or ends the run with one: `Ok` delivers the output. -/
theorem step_result {s t : State} (hs : s.Inv) (h : step s = .next t) :
    (t.phase ≠ .done ∧ t.result = none) ∨ (t.phase = .done ∧ t.result = some (.ok t.out)) ∨
      (t.phase = .done ∧ ∃ e, t.result = some (.err e) ∧ MayRaise s e) := by
  have hnone : s.result = none := hs.result_eq_none (phase_ne_done_of_step h)
  have herror {e : RunError} (hr : t.result = some (.err e)) :
      t.phase = .done ∧ ∃ e, t.result = some (.err e) ∧ MayRaise s e := by
    have hraised := raisesError_of_step h hr (by simp [hnone])
    exact ⟨hraised.phase_eq, e, hr, hraised.mayRaise⟩
  cases step_end h with
  | goesOn hp hr => exact .inl ⟨hp, hr.trans hnone⟩
  | headerError _ _ hr => exact .inr (.inr (herror hr))
  | passThroughDone _ ht => exact .inr (.inl (by simp [ht, passEndStep]))
  | sentinel _ _ ht => exact .inr (.inl (by simp [ht]))
  | soft _ ht => exact .inr (.inl (by simp [ht, softTerminateStep]))
  | strict _ _ hr => exact .inr (.inr (herror hr))

/-! ### The phases -/

/-- The cursor of the compressed path is in the payload, below `bound` (42_compressed_path.md R113). -/
structure State.OnCompressedPayload (t : State) : Prop where
  kind_eq : t.hdr.kind = some .compressed
  header_le : 16 ≤ t.cur
  le_bound : t.cur ≤ t.bound

/-- What holds after the header of a state in each phase. -/
inductive PhaseInv (t : State) : Prop where
  /-- The output is the payload read so far (41_uncompressed_path.md R96). -/
  | passing (hp : t.phase = .pass) (hk : t.hdr.kind = some .uncompressed) (hc : 16 ≤ t.cur)
      (ho : t.out = (t.input.take t.cur).drop 16) (hidle : t.copyRemaining = 0)
  /-- A group begins (42_compressed_path.md R102). -/
  | atControl (hp : t.phase = .ctrl) (hpath : t.OnCompressedPayload) (hidle : t.copyRemaining = 0)
  /-- The control bit announces a literal (42_compressed_path.md R103). -/
  | atLiteral (hp : t.phase = .lit) (hpath : t.OnCompressedPayload) (hidle : t.copyRemaining = 0)
      (hlt : t.bitIndex < 8) (hbit : controlBit t.ctrl t.bitIndex = false)
  /-- The control bit announces a reference (42_compressed_path.md R103). -/
  | atReference (hp : t.phase = .ref) (hpath : t.OnCompressedPayload) (hidle : t.copyRemaining = 0)
      (hlt : t.bitIndex < 8) (hbit : controlBit t.ctrl t.bitIndex = true)
  /-- A copy is under way; its read never meets its write (42_compressed_path.md R110, R111). -/
  | copying (hp : t.phase = .copy) (hpath : t.OnCompressedPayload) (hpos : 1 ≤ t.copyRemaining)
      (hle : t.copyRemaining ≤ 17) (hbit : 1 ≤ t.bitIndex) (hne : t.r ≠ t.w)
  /-- The run has ended. -/
  | ended (hp : t.phase = .done) (hidle : t.copyRemaining = 0)

/-- Where the next token is sought, its control bit selects the phase. -/
theorem PhaseInv.of_nextToken {t : State} (hp : t.phase = nextTokenPhase t.ctrl t.bitIndex) (hrange : t.bitIndex ≤ 8)
    (hpath : t.OnCompressedPayload) (hidle : t.copyRemaining = 0) : PhaseInv t := by
  rcases nextTokenPhase_cases t.ctrl t.bitIndex with hn | hn | hn
  · exact .atControl (hp.trans hn) hpath hidle
  · obtain ⟨hne, hbit⟩ := (nextTokenPhase_eq_lit _ _).1 hn
    exact .atLiteral (hp.trans hn) hpath hidle (Nat.lt_of_le_of_ne hrange hne) hbit
  · obtain ⟨hne, hbit⟩ := (nextTokenPhase_eq_ref _ _).1 hn
    exact .atReference (hp.trans hn) hpath hidle (Nat.lt_of_le_of_ne hrange hne) hbit

section PhaseInv
variable {t : State} (h : PhaseInv t)
include h

theorem PhaseInv.phase_ne_header : t.phase ≠ .header := by
  cases h <;> simp_all

theorem PhaseInv.passOutput (hp : t.phase = .pass) :
    t.hdr.kind = some .uncompressed ∧ 16 ≤ t.cur ∧ t.out = (t.input.take t.cur).drop 16 := by
  cases h with
  | passing _ hk hc ho => exact ⟨hk, hc, ho⟩
  | _ => simp_all

theorem PhaseInv.compressedCursor (hp : t.phase.inCompressedPath = true) :
    t.hdr.kind = some .compressed ∧ 16 ≤ t.cur ∧ t.cur ≤ t.bound := by
  cases h with
  | passing hq => simp [hq, Phase.inCompressedPath] at hp
  | atControl _ hpath => exact ⟨hpath.kind_eq, hpath.header_le, hpath.le_bound⟩
  | atLiteral _ hpath => exact ⟨hpath.kind_eq, hpath.header_le, hpath.le_bound⟩
  | atReference _ hpath => exact ⟨hpath.kind_eq, hpath.header_le, hpath.le_bound⟩
  | copying _ hpath => exact ⟨hpath.kind_eq, hpath.header_le, hpath.le_bound⟩
  | ended hq => simp [hq, Phase.inCompressedPath] at hp

theorem PhaseInv.litBit (hp : t.phase = .lit) : t.bitIndex < 8 ∧ controlBit t.ctrl t.bitIndex = false := by
  cases h with
  | atLiteral _ _ _ hlt hbit => exact ⟨hlt, hbit⟩
  | _ => simp_all

theorem PhaseInv.refBit (hp : t.phase = .ref) : t.bitIndex < 8 ∧ controlBit t.ctrl t.bitIndex = true := by
  cases h with
  | atReference _ _ _ hlt hbit => exact ⟨hlt, hbit⟩
  | _ => simp_all

theorem PhaseInv.copyRange (hp : t.phase = .copy) :
    1 ≤ t.copyRemaining ∧ t.copyRemaining ≤ 17 ∧ 1 ≤ t.bitIndex ∧ t.r ≠ t.w := by
  cases h with
  | copying _ _ hpos hle hbit hne => exact ⟨hpos, hle, hbit, hne⟩
  | _ => simp_all

theorem PhaseInv.copyIdle (hp : t.phase ≠ .copy) : t.copyRemaining = 0 := by
  cases h with
  | copying hq => exact absurd hq hp
  | _ => assumption

end PhaseInv

/-! ### Every step keeps the phase's clauses -/

/-- On the compressed path a state that meets the invariant has its cursor in the payload. -/
theorem State.Inv.onCompressedPayload {s : State} (hs : s.Inv) (hp : s.phase.inCompressedPath = true) :
    s.OnCompressedPayload :=
  let ⟨hkind, hheader, hbound⟩ := hs.compressedCursor hp
  ⟨hkind, hheader, hbound⟩

/-- Reading a unit that `bound` admits keeps the cursor in the payload. -/
theorem State.OnCompressedPayload.advance {s t : State} (hs : s.OnCompressedPayload) {n : Nat}
    (ha : s.inAvail n = true) (hhdr : t.hdr = s.hdr) (hbound : t.bound = s.bound) (hcur : t.cur = s.cur + n) :
    t.OnCompressedPayload where
  kind_eq := by rw [hhdr, hs.kind_eq]
  header_le := by rw [hcur]; exact Nat.le_add_right_of_le hs.header_le
  le_bound := by rw [hcur, hbound]; exact inAvail_iff.1 ha

/-- A copy is of 2 to 17 bytes (30_encoding.md R75). -/
theorem actualLength_range (rawLen : Nibble) : 2 ≤ actualLength rawLen ∧ actualLength rawLen ≤ 17 := by
  have hlt := rawLen.isLt
  unfold actualLength
  omega

section PhaseInvStep
variable {s : State} (hs : s.Inv)
include hs

theorem phaseInv_headerStep (hp : s.phase = .header) (hn : s.cur + 16 ≤ s.input.length) (h : RawHeader) :
    PhaseInv (headerStep h s) := by
  obtain ⟨hcur, hout, _⟩ := hs.headerFirst hp
  have hidle : s.copyRemaining = 0 := hs.copyIdle (by simp [hp])
  cases headerStep_exit h s with
  | failed hdone => exact .ended hdone (by simpa [headerStep_frame] using hidle)
  | passThrough he =>
    rw [he]
    exact .passing rfl rfl (by simp) (by simp [hcur, hout]) hidle
  | compressedPath hsize he =>
    rw [he]
    exact .atControl rfl ⟨rfl, Nat.le_add_left .., by simpa [hcur] using le_loopBoundValue _ (by omega) hsize⟩ hidle

/-- Passing a byte extends the payload read so far by it. -/
theorem phaseInv_pass (hp : s.phase = .pass) {b : Byte} {rest : List Byte} (hr : s.inputRest = b :: rest) :
    PhaseInv ((s.emit b).advanceCur 1) := by
  obtain ⟨hkind, hheader, hout⟩ := hs.passOutput hp
  have hget : s.input[s.cur]? = some b := by
    rw [← List.head?_drop, ← State.inputRest, hr]
    rfl
  have htake : s.input.take (s.cur + 1) = s.input.take s.cur ++ [b] := by
    rw [List.take_add_one, hget]
    rfl
  have hlen : 16 ≤ (s.input.take s.cur).length := by
    have hlt := (List.getElem?_eq_some_iff.1 hget).1
    rw [List.length_take]
    omega
  refine .passing hp hkind (by simpa using Nat.le_succ_of_le hheader) ?_ (hs.copyIdle (by simp [hp]))
  simp only [State.advanceCur_out, State.emit_out, State.advanceCur_input, State.emit_input, State.advanceCur_cur,
    State.emit_cur, htake, List.drop_append_of_le_length hlen, hout]

/-- After its token the REF step starts a copy whose read is apart from its write, or ends the run. -/
theorem phaseInv_tokenStep (hp : s.phase = .ref) (ha : s.inAvail 2 = true) (offset : DictIndex) (rawLen : Nibble) :
    PhaseInv (tokenStep offset rawLen s) := by
  have hidle : s.copyRemaining = 0 := hs.copyIdle (by simp [hp])
  have hpath := hs.onCompressedPayload (by simp [hp, Phase.inCompressedPath])
  obtain ⟨hmin, hmax⟩ := actualLength_range rawLen
  rcases tokenStep_cases offset rawLen s with ⟨_, he⟩ | ⟨_, _, he⟩ | ⟨hne, _, he⟩
  · rw [he]
    exact .ended rfl hidle
  · rw [he]
    exact .ended rfl hidle
  · rw [he]
    exact .copying rfl (hpath.advance ha rfl rfl rfl) (Nat.le_of_succ_le hmin) hmax (Nat.le_add_left ..) hne

/-- A byte of a copy leaves read and write apart; after the last byte comes the next token. -/
theorem phaseInv_copyStep (hp : s.phase = .copy) : PhaseInv (copyStep s) := by
  obtain ⟨hpos, hle, hbit, hne⟩ := hs.copyRange hp
  obtain ⟨hkind, hheader, hbound⟩ := hs.onCompressedPayload (by simp [hp, Phase.inCompressedPath])
  have hpath : (copyStep s).OnCompressedPayload :=
    ⟨by simp [copyStep_frame, hkind], by simp [copyStep_frame, hheader], by simp [copyStep_frame, hbound]⟩
  rcases copyStep_cases s with ⟨_, he⟩ | ⟨hlt, he⟩
  · exact .of_nextToken (by simp [he]) (by simpa [he] using hs.bitIndexRange) hpath (by simp [he])
  · exact .copying (by simp [he, hp]) hpath (by simp [he]; omega) (by simp [he]; omega) (by simpa [he] using hbit)
      (by simpa [he] using hne)

end PhaseInvStep

/-- Every step from a state that meets the invariant goes to a state that meets the clauses of its phase. -/
theorem phaseInv_of_step {s t : State} (hs : s.Inv) (h : step s = .next t) : PhaseInv t := by
  have hrange : t.bitIndex ≤ 8 := step_keeps_bitIndexRange hs h
  cases step_cases h with
  | shortHeader hp => exact .ended rfl (hs.copyIdle (by simp [hp]))
  | header hp hn hd => exact phaseInv_headerStep hs hp hn hd
  | raw hp _ b rest hr => exact phaseInv_pass hs hp hr
  | passEnd hp => exact .ended rfl (hs.copyIdle (by simp [hp]))
  | ctrl hp ha =>
    have hpath := hs.onCompressedPayload (by simp [hp, Phase.inCompressedPath])
    exact .of_nextToken rfl hrange (hpath.advance ha rfl rfl rfl) (hs.copyIdle (by simp [hp]))
  | lit hp ha =>
    have hpath := hs.onCompressedPayload (by simp [hp, Phase.inCompressedPath])
    exact .of_nextToken rfl hrange (hpath.advance ha rfl rfl rfl) (hs.copyIdle (by simp [hp]))
  | token hp ha => exact phaseInv_tokenStep hs hp ha _ _
  | softByte hp =>
    refine .ended rfl (hs.copyIdle ?_)
    rcases hp with hp | hp <;> simp [hp]
  | softToken hp => exact .ended rfl (hs.copyIdle (by simp [hp]))
  | copy hp => exact phaseInv_copyStep hs hp

/-- Every step keeps the invariant. -/
theorem inv_of_step {s t : State} (hs : s.Inv) (h : step s = .next t) : t.Inv := by
  have hphase : PhaseInv t := phaseInv_of_step hs h
  have hresult := step_result hs h
  exact {
    dictCanonical := step_keeps_dictCanonical h hs.dictCanonical
    writtenHasValue := step_keeps_writtenHasValue h hs.writtenHasValue
    cursorInInput := (cursorAdvances.2 s t h).2.2 hs
    boundInInput := step_keeps_boundInInput h hs.boundInInput
    bitIndexRange := step_keeps_bitIndexRange hs h
    headerFirst := fun hp => absurd hp hphase.phase_ne_header
    passOutput := hphase.passOutput
    compressedCursor := hphase.compressedCursor
    litBit := hphase.litBit
    refBit := hphase.refBit
    copyRange := hphase.copyRange
    copyIdle := hphase.copyIdle
    resultAtDone := by
      rcases hresult with ⟨hp, hr⟩ | ⟨hp, hr⟩ | ⟨hp, e, hr, _⟩ <;> simp [hp, hr]
    okDeliversOut := fun bytes hok => by
      rcases hresult with ⟨_, hr⟩ | ⟨_, hr⟩ | ⟨_, e, hr, _⟩ <;> simp_all
    neverCorrupted := fun hr => hs.neverCorrupted (corruptedNeverRaised s t h hr)
    strictOnly := fun hr => by
      have hnone := hs.result_eq_none (phase_ne_done_of_step h)
      rw [(step_params_input h).1]
      exact (strictErrorOnlyUnderStrictRefs s t h (by simp [hnone]) hr).1 }

/-- The start meets the invariant: the dictionary lists nothing, and no phase but HEADER is entered. -/
theorem inv_start (p : Params) (input : List Byte) : (State.start p input).Inv where
  dictCanonical := Memory.wf_nil
  writtenHasValue i := by
    rw [start_written]
    exact Memory.initial_isSome i.toNat
  cursorInInput := Nat.zero_le _
  boundInInput := Nat.zero_le _
  bitIndexRange := Nat.zero_le 8
  headerFirst _ := ⟨rfl, rfl, rfl⟩
  passOutput := nofun
  compressedCursor := nofun
  litBit := nofun
  refBit := nofun
  copyRange := nofun
  copyIdle _ := rfl
  resultAtDone := rfl
  okDeliversOut := nofun
  neverCorrupted := nofun
  strictOnly := nofun

/-! ### A step is enabled (42_compressed_path.md R115) -/

theorem exists_step_of_header {s : State} (hp : s.phase = .header) : ∃ t, step s = .next t := by
  by_cases hn : s.input.length - s.cur < 16
  · exact ⟨_, step_of_shortInput hp hn⟩
  · obtain ⟨h, rest, hr⟩ := readHeader_isSome (bytes := s.inputRest) (by rw [inputRest_length]; omega)
    exact ⟨_, step_of_header hp hr⟩

theorem exists_step_of_pass {s : State} (hp : s.phase = .pass) : ∃ t, step s = .next t := by
  by_cases hn : s.cur < s.input.length
  · exact ⟨_, step_of_passByte hp hn⟩
  · exact ⟨_, step_of_passEnd hp (Nat.not_lt.1 hn)⟩

/-- Where the phase reads a unit of the compressed path, it is read or the run ends softly. -/
theorem exists_step_of_unit {s : State} (hb : s.bound ≤ s.input.length)
    (hp : s.phase = .ctrl ∨ s.phase = .lit ∨ s.phase = .ref) : ∃ t, step s = .next t := by
  by_cases hlack : s.LacksUnit
  · exact ⟨_, step_of_lacksUnit hlack⟩
  · rcases hp with hp | hp | hp
    · exact ⟨_, step_of_controlByte hp (by simpa [State.LacksUnit, hp] using hlack) hb⟩
    · exact ⟨_, step_of_literalByte hp (by simpa [State.LacksUnit, hp] using hlack) hb⟩
    · have ha : s.cur + 2 ≤ s.bound := by simpa [State.LacksUnit, hp] using hlack
      exact ⟨_, step_of_tokenBytes hp ha (inputRest_eq_cons_cons (ha.trans hb))⟩

end Sys2Proof.Machine

open Sys2Proof Sys2Proof.Machine

/-- Settles O36. -/
theorem startMeetsInvariant : Obligations.StartMeetsInvariant :=
  inv_start

/-- Settles O37. -/
theorem stepKeepsInvariant : Obligations.StepKeepsInvariant :=
  fun _ _ hs h => inv_of_step hs h

/-- Settles O35, phase by phase: each step rule goes on, or ends the run. -/
theorem stepEnabledUntilDone : Obligations.StepEnabledUntilDone := by
  intro s hs hdone
  cases hp : s.phase with
  | header => exact exists_step_of_header hp
  | pass => exact exists_step_of_pass hp
  | ctrl => exact exists_step_of_unit hs.boundInInput (.inl hp)
  | lit => exact exists_step_of_unit hs.boundInInput (.inr (.inl hp))
  | ref => exact exists_step_of_unit hs.boundInInput (.inr (.inr hp))
  | copy => exact ⟨_, step_of_copy hp⟩
  | done => exact absurd hp hdone

end

section
/-!
PROOFS. A copy repeats the bytes behind the write position (42_compressed_path.md section 5): after `j` bytes of it,
what has been emitted and which cells hold what.
-/

namespace Sys2Proof

/-- A run that reaches `u` goes on from `u`. -/
theorem run_add {M : Host.Core} {j : Nat} {s u : M.State} (h : M.run j s = .next u) (k : Nat) :
    M.run (j + k) s = M.run k u := by
  induction j generalizing s with
  | zero =>
    cases h
    rw [Nat.zero_add]
  | succ j ih =>
    obtain ⟨v, hv⟩ := step_of_run_succ h
    rw [Nat.succ_add, run_succ_of_step hv]
    exact ih ((run_succ_of_step hv j).symm.trans h)

/-- A run that reaches `u`, and one step more. -/
theorem run_succ_of_run {M : Host.Core} {j : Nat} {s u t : M.State} (h : M.run j s = .next u)
    (hstep : M.step u = .next t) : M.run (j + 1) s = .next t :=
  (run_add h 1).trans (run_succ_of_step hstep 0)

namespace Machine

/-! ### The value of a cell (10_state.md R27) -/

theorem read_of_cellValue {s : State} {i : DictIndex} {v : Byte} (h : s.cellValue i = some v) :
    s.dict.read i.toNat = some v := by
  unfold State.cellValue at h
  split at h
  · exact h
  · cases h

/-- A byte produced is the value of its cell. -/
theorem ProducesByte.cellValue_same {s t : State} {v : Byte} (h : ProducesByte s t v) : t.cellValue s.w = some v := by
  simp [State.cellValue, h.written, h.read_same]

/-- A byte produced leaves the value of every other cell alone. -/
theorem ProducesByte.cellValue_other {s t : State} {v : Byte} (h : ProducesByte s t v) {i : DictIndex}
    (hi : i ≠ s.w) : t.cellValue i = s.cellValue i := by
  have hread : t.dict.read i.toNat = s.dict.read i.toNat := h.read_other fun hn => hi (BitVec.eq_of_toNat_eq hn)
  simp [State.cellValue, h.written, hread, hi]

/-- The COPY step produces the byte it has read (42_compressed_path.md R110). -/
theorem producesByte_copyStep (s : State) : ProducesByte s (copyStep s) (s.dictRead s.r).1 := by
  constructor <;> simp [copyStep_frame]

/-! ### Offsets modulo 4096 (20_memory.md R44) -/

theorem add_ofNat_eq_iff (i : DictIndex) (j k : Nat) :
    i + BitVec.ofNat 12 j = i + BitVec.ofNat 12 k ↔ j % 4096 = k % 4096 := by
  rw [BitVec.add_right_inj, ← BitVec.toNat_inj, BitVec.toNat_ofNat, BitVec.toNat_ofNat]

theorem add_ofNat_add (i : DictIndex) (j k : Nat) :
    i + BitVec.ofNat 12 (j + k) = i + BitVec.ofNat 12 j + BitVec.ofNat 12 k := by
  rw [BitVec.ofNat_add, BitVec.add_assoc]

/-- An offset is as far from another as their difference says. -/
theorem add_ofNat_sub (i j : DictIndex) : i + BitVec.ofNat 12 (j - i).toNat = j := by
  rw [BitVec.ofNat_toNat, BitVec.setWidth_eq, BitVec.add_comm, BitVec.sub_add_cancel]

/-! ### A copy after `j` of its bytes -/

/-- `u` is the state of the copy that begins in `t`, after `j` bytes of it, where byte `k` is `b k`. -/
structure CopyProgress (t : State) (b : Nat → Byte) (j : Nat) (u : State) : Prop where
  out_eq : u.out = t.out ++ (List.range j).map b
  w_eq : u.w = t.w + BitVec.ofNat 12 j
  r_eq : u.r = t.r + BitVec.ofNat 12 j
  copyRemaining_eq : u.copyRemaining = t.copyRemaining - j
  ctrl_eq : u.ctrl = t.ctrl
  bitIndex_eq : u.bitIndex = t.bitIndex
  phase_eq : u.phase = if j < t.copyRemaining then .copy else nextTokenPhase t.ctrl t.bitIndex
  /-- The bytes copied are the values of the cells from the write position on. -/
  copied : ∀ k, k < j → u.cellValue (t.w + BitVec.ofNat 12 k) = some (b k)
  /-- No other cell is touched. -/
  kept : ∀ i : DictIndex, (∀ k, k < j → i ≠ t.w + BitVec.ofNat 12 k) →
    u.cellValue i = t.cellValue i ∧ u.dict.read i.toNat = t.dict.read i.toNat

theorem copyProgress_zero {t : State} (b : Nat → Byte) (hp : t.phase = .copy) (hpos : 0 < t.copyRemaining) :
    CopyProgress t b 0 t where
  out_eq := (List.append_nil _).symm
  w_eq := (BitVec.add_zero _).symm
  r_eq := (BitVec.add_zero _).symm
  copyRemaining_eq := rfl
  ctrl_eq := rfl
  bitIndex_eq := rfl
  phase_eq := by rw [hp, if_pos hpos]
  copied := nofun
  kept _ _ := ⟨rfl, rfl⟩

/-- A COPY step that reads byte `j` of the copy makes one byte of progress. -/
theorem CopyProgress.succ {t u : State} {b : Nat → Byte} {j : Nat} (h : CopyProgress t b j u)
    (hj : j < t.copyRemaining) (hlen : t.copyRemaining ≤ 17) (hread : u.cellValue u.r = some (b j)) :
    CopyProgress t b (j + 1) (copyStep u) := by
  have hprod : ProducesByte u (copyStep u) (b j) := by
    have := producesByte_copyStep u
    rwa [dictRead_of_value hread] at this
  have hphase : u.phase = .copy := by rw [h.phase_eq, if_pos hj]
  exact {
    out_eq := by rw [hprod.out_eq, h.out_eq, List.range_succ, List.map_append, List.append_assoc]; rfl
    w_eq := by rw [hprod.w_eq, h.w_eq, add_ofNat_add]
    r_eq := by simp only [copyStep_frame, h.r_eq, add_ofNat_add]
    copyRemaining_eq := by simp only [copyStep_eq, h.copyRemaining_eq]; omega
    ctrl_eq := by simp only [copyStep_frame, h.ctrl_eq]
    bitIndex_eq := by simp only [copyStep_frame, h.bitIndex_eq]
    phase_eq := by
      have hlast : u.copyRemaining - 1 = 0 ↔ ¬ j + 1 < t.copyRemaining := by rw [h.copyRemaining_eq]; omega
      simp only [copyStep_eq, hlast, ite_not, hphase, h.ctrl_eq, h.bitIndex_eq]
    copied := fun k hk => by
      by_cases hkj : k = j
      · rw [hkj, ← h.w_eq, hprod.cellValue_same]
      · have hne : t.w + BitVec.ofNat 12 k ≠ u.w := by
          rw [h.w_eq, ne_eq, add_ofNat_eq_iff]
          omega
        rw [hprod.cellValue_other hne, h.copied k (by omega)]
    kept := fun i hi => by
      have hne : i ≠ u.w := by rw [h.w_eq]; exact hi j (Nat.lt_succ_self j)
      obtain ⟨hvalue, hcell⟩ := h.kept i fun k hk => hi k (Nat.lt_succ_of_lt hk)
      exact ⟨(hprod.cellValue_other hne).trans hvalue,
        (hprod.read_other fun hn => hne (BitVec.eq_of_toNat_eq hn)).trans hcell⟩ }

/-- Byte `j` of the copy is read from a cell not yet overwritten, if it is among the first `d`, and else from the cell
written `d` bytes before, `d` being how far the read is behind the write. -/
theorem CopyProgress.read_eq {t u : State} {v : Nat → Byte} {j d : Nat}
    (h : CopyProgress t (fun k => v (k % d)) j u) (hd : d = (t.w - t.r).toNat) (hpos : 0 < d)
    (hfirst : j < d → t.cellValue (t.r + BitVec.ofNat 12 j) = some (v j)) :
    u.cellValue u.r = some (v (j % d)) := by
  have hw : t.w = t.r + BitVec.ofNat 12 d := by rw [hd, add_ofNat_sub]
  have hlt : d < 4096 := by rw [hd]; exact (t.w - t.r).isLt
  rw [h.r_eq]
  by_cases hjd : j < d
  · have hapart : ∀ k, k < j → t.r + BitVec.ofNat 12 j ≠ t.w + BitVec.ofNat 12 k := by
      intro k hk
      rw [hw, ← add_ofNat_add, ne_eq, add_ofNat_eq_iff]
      omega
    rw [(h.kept _ hapart).1, hfirst hjd, Nat.mod_eq_of_lt hjd]
  · have hback : t.r + BitVec.ofNat 12 j = t.w + BitVec.ofNat 12 (j - d) := by
      rw [hw, ← add_ofNat_add, Nat.add_sub_of_le (Nat.not_lt.1 hjd)]
    rw [hback, h.copied _ (by omega), ← Nat.mod_eq_sub_mod (Nat.not_lt.1 hjd)]

/-- The copy that begins in `t` repeats the `d` bytes behind the write position, byte for byte. -/
theorem run_copy_progress {t : State} {v : Nat → Byte} {d : Nat} (hp : t.phase = .copy)
    (hlen : t.copyRemaining ≤ 17) (hd : d = (t.w - t.r).toNat) (hpos : 0 < d)
    (hfirst : ∀ k, k < t.copyRemaining → k < d → t.cellValue (t.r + BitVec.ofNat 12 k) = some (v k))
    {j : Nat} (hj : j ≤ t.copyRemaining) (hstart : 0 < t.copyRemaining) :
    ∃ u, Host.Core.run core j t = .next u ∧ CopyProgress t (fun k => v (k % d)) j u := by
  induction j with
  | zero => exact ⟨t, rfl, copyProgress_zero _ hp hstart⟩
  | succ j ih =>
    obtain ⟨u, hrun, hu⟩ := ih (Nat.le_of_succ_le hj)
    have hphase : u.phase = .copy := by rw [hu.phase_eq, if_pos (by omega)]
    have hread := hu.read_eq hd hpos (hfirst j (by omega))
    exact ⟨copyStep u, run_succ_of_run (M := core) hrun (step_of_copy hphase), hu.succ (by omega) hlen hread⟩

/-- A `REF` that goes to COPY has started the copy of its token. -/
theorem exec_ref_to_copy {offset : DictIndex} {rawLen : Nibble} {s t : State}
    (h : exec (.ref offset rawLen) s = .next t) (hcopy : t.phase = .copy) :
    t = (s.storeToken offset rawLen).startCopy offset rawLen := by
  obtain ⟨_, rfl⟩ := exec_eq_next h
  rcases tokenStep_cases offset rawLen s with ⟨_, he⟩ | ⟨_, _, he⟩ | ⟨_, _, he⟩
  · simp [effect, he] at hcopy
  · simp [effect, he] at hcopy
  · exact he

end Machine
end Sys2Proof

open Sys2Proof Sys2Proof.Machine

/-- Settles O48, by induction on the bytes copied so far. -/
theorem copyRepeatsPeriodically : Obligations.CopyRepeatsPeriodically := by
  intro offset rawLen s t0 v _ hne h hcopy len d hfirst
  obtain rfl := exec_ref_to_copy h hcopy
  have hbehind : offset + BitVec.ofNat 12 d = s.w := add_ofNat_sub offset s.w
  have hpos : 0 < d := by
    refine Nat.pos_of_ne_zero fun h0 => hne ?_
    rw [← hbehind, h0]
    exact (BitVec.add_zero offset).symm
  have hlen : len ≤ 17 := (actualLength_range rawLen).2
  obtain ⟨t, hrun, ht⟩ := run_copy_progress (t := (s.storeToken offset rawLen).startCopy offset rawLen) (v := v)
    rfl hlen rfl hpos hfirst (Nat.le_refl len) (Nat.succ_pos _)
  refine ⟨t, hrun, ht.out_eq, ht.w_eq, ht.r_eq, ?_, ?_, fun k hk => read_of_cellValue (ht.copied k hk),
    fun i hi => (ht.kept i hi).2⟩
  · exact ht.copyRemaining_eq.trans (Nat.sub_self len)
  · exact ht.phase_eq.trans (if_neg (Nat.lt_irrefl len))

end

section
/-!
PROOFS. Runs to their end (42_compressed_path.md section 6, 20_memory.md section 6): every run ends within its bound of
steps, and its output is no longer than the input read allows.
-/

namespace Sys2Proof.Machine

/-! ### Runs of the machine -/

/-- What every step keeps holds at the end of a run from a state in which it holds. -/
theorem run_induction {P : State → Prop} (hstep : ∀ {s t : State}, P s → step s = .next t → P t) {k : Nat}
    {s t : State} (hs : P s) (h : Host.Core.run core k s = .next t) : P t := by
  induction k generalizing t with
  | zero =>
    cases h
    exact hs
  | succ k ih =>
    obtain ⟨u, hu, hlast⟩ := last_step_of_run h
    exact hstep (ih hu) hlast

/-! ### The steps a run has left (42_compressed_path.md R115) -/

/-- A bound on the steps left after the header: the bytes of the pass-through and its end; on the compressed path nine
steps for each byte, a token of two bytes taking at most eighteen, the bytes of the copy, and the end. -/
def State.stepsLeft (s : State) : Nat :=
  match s.phase with
  | .pass => s.input.length - s.cur + 1
  | .done => 0
  | _ => 9 * (s.bound - s.cur) + s.copyRemaining + 1

theorem stepsLeft_of_pass {s : State} (hp : s.phase = .pass) : s.stepsLeft = s.input.length - s.cur + 1 := by
  simp [State.stepsLeft, hp]

theorem stepsLeft_of_done {s : State} (hp : s.phase = .done) : s.stepsLeft = 0 := by
  simp [State.stepsLeft, hp]

theorem stepsLeft_of_path {s : State} (hp : s.phase.inCompressedPath = true) :
    s.stepsLeft = 9 * (s.bound - s.cur) + s.copyRemaining + 1 := by
  cases hq : s.phase <;> simp_all [State.stepsLeft, Phase.inCompressedPath]

theorem stepsLeft_pos {s : State} (hp : s.phase ≠ .done) : 0 < s.stepsLeft := by
  cases hq : s.phase <;> simp_all [State.stepsLeft]

theorem inCompressedPath_nextTokenPhase (c : Byte) (i : Nat) : (nextTokenPhase c i).inCompressedPath = true := by
  rcases nextTokenPhase_cases c i with h | h | h <;> rw [h] <;> rfl

/-- Reading a byte on the compressed path uses up nine of the steps left. -/
theorem stepsLeft_lt_of_byte {s t : State} (hs : s.phase.inCompressedPath = true)
    (ht : t.phase.inCompressedPath = true) (ha : s.inAvail 1 = true) (hcur : t.cur = s.cur + 1)
    (hbound : t.bound = s.bound) (hrem : t.copyRemaining = s.copyRemaining) : t.stepsLeft < s.stepsLeft := by
  have hunit := inAvail_iff.1 ha
  rw [stepsLeft_of_path hs, stepsLeft_of_path ht, hcur, hbound, hrem]
  omega

/-- The REF step uses up eighteen of the steps left, or starts a copy of at most seventeen bytes. -/
theorem stepsLeft_tokenStep {s : State} (hp : s.phase = .ref) (ha : s.inAvail 2 = true) (offset : DictIndex)
    (rawLen : Nibble) : (tokenStep offset rawLen s).stepsLeft < s.stepsLeft := by
  have hunit := inAvail_iff.1 ha
  have hlen := (actualLength_range rawLen).2
  have hs : s.stepsLeft = 9 * (s.bound - s.cur) + s.copyRemaining + 1 :=
    stepsLeft_of_path (by simp [hp, Phase.inCompressedPath])
  rcases tokenStep_cases offset rawLen s with ⟨_, he⟩ | ⟨_, _, he⟩ | ⟨_, _, he⟩
  · rw [he, stepsLeft_of_done rfl]
    omega
  · rw [he, stepsLeft_of_done rfl]
    omega
  · rw [he, hs, stepsLeft_of_path rfl]
    simp only [State.startCopy_bound, State.storeToken_bound, State.startCopy_cur, State.storeToken_cur,
      State.startCopy_copyRemaining]
    omega

/-- The COPY step uses up one of the bytes of the copy. -/
theorem stepsLeft_copyStep {s : State} (hp : s.phase = .copy) (hpos : 1 ≤ s.copyRemaining) :
    (copyStep s).stepsLeft < s.stepsLeft := by
  have hpath : (copyStep s).phase.inCompressedPath = true := by
    rcases copyStep_cases s with ⟨_, he⟩ | ⟨_, he⟩
    · simp [he, inCompressedPath_nextTokenPhase]
    · simp [he, hp, Phase.inCompressedPath]
  have hrem : (copyStep s).copyRemaining = s.copyRemaining - 1 := by rw [copyStep_eq]
  rw [stepsLeft_of_path hpath, stepsLeft_of_path (by simp [hp, Phase.inCompressedPath]), hrem]
  simp only [copyStep_frame]
  omega

/-- After the header every step uses up some of the steps left. -/
theorem stepsLeft_lt_of_step {s t : State} (hs : s.Inv) (hp : s.phase ≠ .header) (h : step s = .next t) :
    t.stepsLeft < s.stepsLeft := by
  have hpos : 0 < s.stepsLeft := stepsLeft_pos (phase_ne_done_of_step h)
  cases step_cases h with
  | shortHeader hq => exact absurd hq hp
  | header hq => exact absurd hq hp
  | raw hq hn =>
    rw [stepsLeft_of_pass hq, stepsLeft_of_pass (by simpa using hq)]
    simp only [State.advanceCur_input, State.emit_input, State.advanceCur_cur, State.emit_cur]
    omega
  | passEnd => exact stepsLeft_of_done (s := passEndStep s) rfl ▸ hpos
  | ctrl hq ha =>
    exact stepsLeft_lt_of_byte (by simp [hq, Phase.inCompressedPath]) (by simp [inCompressedPath_nextTokenPhase])
      ha rfl rfl rfl
  | lit hq ha =>
    exact stepsLeft_lt_of_byte (by simp [hq, Phase.inCompressedPath]) (by simp [inCompressedPath_nextTokenPhase])
      ha rfl rfl rfl
  | token hq ha => exact stepsLeft_tokenStep hq ha _ _
  | softByte => exact stepsLeft_of_done (s := softTerminateStep s) rfl ▸ hpos
  | softToken => exact stepsLeft_of_done (s := softTerminateStep s) rfl ▸ hpos
  | copy hq => exact stepsLeft_copyStep hq (hs.copyRange hq).1

/-! ### Every run ends -/

/-- After the header: the invariant holds, and no error but the strict one is the result. -/
structure AfterHeader (s : State) : Prop where
  inv : s.Inv
  phase_ne : s.phase ≠ .header
  lateError : ∀ e, s.result = some (.err e) → e = .invalidDictionaryReference

theorem AfterHeader.step {s t : State} (hs : AfterHeader s) (h : step s = .next t) : AfterHeader t where
  inv := inv_of_step hs.inv h
  phase_ne := (phaseInv_of_step hs.inv h).phase_ne_header
  lateError e hr := by
    have hnone := hs.inv.result_eq_none (phase_ne_done_of_step h)
    cases (raisesError_of_step h hr (by simp [hnone])).mayRaise with
    | size hp => exact absurd hp hs.phase_ne
    | kind hp => exact absurd hp hs.phase_ne
    | strict => rfl

/-- After the header a run ends within the steps it has left; `bound` and the header registers stay. -/
theorem exists_run_to_done {s : State} (hs : AfterHeader s) :
    ∃ k t, k ≤ s.stepsLeft ∧ Host.Core.run core k s = .next t ∧ t.phase = .done ∧ t.bound = s.bound ∧
      t.hdr = s.hdr ∧ AfterHeader t := by
  induction hn : s.stepsLeft using Nat.strong_induction_on generalizing s with
  | _ n ih =>
    by_cases hdone : s.phase = .done
    · exact ⟨0, s, Nat.zero_le n, rfl, hdone, rfl, rfl, hs⟩
    · obtain ⟨u, hu⟩ := stepEnabledUntilDone s hs.inv hdone
      have hlt : u.stepsLeft < n := hn ▸ stepsLeft_lt_of_step hs.inv hs.phase_ne hu
      obtain ⟨hbound, hhdr⟩ := step_keeps_bound_hdr hu hs.phase_ne
      obtain ⟨k, t, hk, hrun, ht, htb, hth, hafter⟩ := ih _ hlt (hs.step hu) rfl
      exact ⟨k + 1, t, by omega, (run_succ_of_step (M := core) hu k).trans hrun, ht, htb.trans hbound,
        hth.trans hhdr, hafter⟩

/-- A first step that does not end the run enters a payload at byte 16, and the steps left are that payload's. -/
theorem first_step_exit {p : Params} {input : List Byte} {u : State} (h : step (State.start p input) = .next u)
    (hp : u.phase ≠ .done) :
    (u.hdr.kind = some .uncompressed ∧ u.stepsLeft = input.length - 16 + 1) ∨
      (u.hdr.kind = some .compressed ∧ u.stepsLeft = 9 * (u.bound - 16) + 1) := by
  cases step_cases h with
  | shortHeader => exact absurd rfl hp
  | header _ _ hd =>
    cases headerStep_exit hd (State.start p input) with
    | failed hq => exact absurd hq hp
    | passThrough he =>
      rw [he]
      exact .inl ⟨rfl, rfl⟩
    | compressedPath _ he =>
      rw [he]
      exact .inr ⟨rfl, rfl⟩
  | softByte hq => simp [State.start] at hq
  | _ => contradiction

/-- A run whose first step enters a payload ends within the steps that are then left. -/
theorem exists_runFrom_to_done {p : Params} {input : List Byte} {u : State}
    (h : step (State.start p input) = .next u) (hp : u.phase ≠ .done) :
    ∃ k t, k ≤ u.stepsLeft ∧ runFrom p input (k + 1) = .next t ∧ t.phase = .done ∧ t.bound = u.bound ∧
      t.hdr = u.hdr ∧ AfterHeader t := by
  have hinv := inv_of_step (inv_start p input) h
  have hnone := hinv.result_eq_none hp
  have hu : AfterHeader u := ⟨hinv, (phaseInv_of_step (inv_start p input) h).phase_ne_header, by simp [hnone]⟩
  obtain ⟨k, t, hk, hrun, ht, hbound, hhdr, hafter⟩ := exists_run_to_done hu
  exact ⟨k, t, hk, (run_succ_of_step (M := core) h k).trans hrun, ht, hbound, hhdr, hafter⟩

end Sys2Proof.Machine

open Sys2Proof Sys2Proof.Machine

/-- Settles O50: a step for the header, and then the steps that the way out of it has left. -/
theorem everyRunEndsWithinBound : Obligations.EveryRunEndsWithinBound := by
  intro p input
  obtain ⟨u, hu⟩ := exists_step_of_header (s := State.start p input) rfl
  by_cases hp : u.phase = .done
  · exact ⟨1, u, run_succ_of_step (M := core) hu 0, hp, fun _ _ _ => rfl, fun _ => by omega, fun _ => by omega⟩
  · obtain ⟨k, t, hk, hrun, ht, hbound, hhdr, hafter⟩ := exists_runFrom_to_done hu hp
    refine ⟨k + 1, t, hrun, ht, fun e hr hne => absurd (hafter.lateError e hr) hne, ?_⟩
    rw [hhdr, hbound]
    rcases first_step_exit hu hp with ⟨hkind, hleft⟩ | ⟨hkind, hleft⟩
    · exact ⟨fun _ => by omega, fun hother => by simp [hkind] at hother⟩
    · exact ⟨fun hother => by simp [hkind] at hother, fun _ => by omega⟩

end

section
/-!
PROOFS. The output's length (20_memory.md section 6): on the compressed path a group of `1 + 8 + popcount(c)` bytes
gives at most eight bytes of output for each of its bytes.
-/

namespace Sys2Proof.Machine

/-- What bounds the output in each phase. Within a group the control byte's eight bytes of output are held back, and
each of the tokens read may have used up one of them, a reference of two bytes giving up to 17. -/
inductive OutputBound (t : State) : Prop where
  /-- No header has been read. -/
  | atHeader (hp : t.phase = .header)
  /-- A pass-through is bounded by its payload, by the invariant. -/
  | passing (hp : t.phase = .pass)
  /-- Between groups: eight bytes for each byte of the payload read. -/
  | atControl (hp : t.phase = .ctrl) (hle : t.out.length ≤ 8 * (t.cur - 16))
  /-- Within a group, with the bytes of its copy still to come. -/
  | inGroup (hp : t.phase = .lit ∨ t.phase = .ref ∨ t.phase = .copy)
      (hle : t.out.length + t.copyRemaining + 8 ≤ 8 * (t.cur - 16) + t.bitIndex)
  /-- The compressed path has ended. -/
  | compressedEnd (hp : t.phase = .done) (hk : t.hdr.kind = some .compressed)
      (hle : t.out.length ≤ 8 * (t.bound - 16))
  /-- The pass-through has ended. -/
  | passEnd (hp : t.phase = .done) (hk : t.hdr.kind = some .uncompressed) (hlen : t.out.length = t.input.length - 16)
  /-- The header was in error. -/
  | failed (hp : t.phase = .done) (e : RunError) (hr : t.result = some (.err e)) (ho : t.out = [])

/-- Where a unit is read, the cursor is in the payload. -/
theorem State.Inv.onPayload_of_unit {s : State} (hs : s.Inv)
    (hp : s.phase = .ctrl ∨ s.phase = .lit ∨ s.phase = .ref) : s.OnCompressedPayload := by
  refine hs.onCompressedPayload ?_
  rcases hp with hp | hp | hp <;> simp [hp, Phase.inCompressedPath]

/-- Where the next token is sought: after eight tokens nothing is held back. -/
theorem OutputBound.of_nextToken {t : State} (hp : t.phase = nextTokenPhase t.ctrl t.bitIndex)
    (hle : t.out.length + t.copyRemaining + 8 ≤ 8 * (t.cur - 16) + t.bitIndex) : OutputBound t := by
  rcases nextTokenPhase_cases t.ctrl t.bitIndex with hn | hn | hn
  · have height : t.bitIndex = 8 := (nextTokenPhase_eq_ctrl _ _).1 hn
    exact .atControl (hp.trans hn) (by omega)
  · exact .inGroup (.inl (hp.trans hn)) hle
  · exact .inGroup (.inr (.inl (hp.trans hn))) hle

section Phases
variable {s : State} (hb : OutputBound s)
include hb

theorem OutputBound.of_ctrl (hp : s.phase = .ctrl) : s.out.length ≤ 8 * (s.cur - 16) := by
  cases hb with
  | atControl _ hle => exact hle
  | _ => simp_all

theorem OutputBound.of_group (hp : s.phase = .lit ∨ s.phase = .ref ∨ s.phase = .copy) :
    s.out.length + s.copyRemaining + 8 ≤ 8 * (s.cur - 16) + s.bitIndex := by
  cases hb with
  | inGroup _ hle => exact hle
  | _ => simp_all

/-- Where the next unit is read, the output is bounded by all that may be read. -/
theorem OutputBound.le_bound (hs : s.Inv) (hp : s.phase = .ctrl ∨ s.phase = .lit ∨ s.phase = .ref) :
    s.out.length ≤ 8 * (s.bound - 16) := by
  have hread : s.out.length ≤ 8 * (s.cur - 16) := by
    rcases hp with hp | hp
    · exact hb.of_ctrl hp
    · have hgroup := hb.of_group (hp.imp_right .inl)
      have hbit := hs.bitIndexRange
      omega
  have hcur : s.cur ≤ s.bound := (hs.onPayload_of_unit hp).le_bound
  omega

/-- The REF step gives up to 17 bytes for its two, and ends the run with no more than was there. -/
theorem OutputBound.tokenStep (hs : s.Inv) (hp : s.phase = .ref) (offset : DictIndex) (rawLen : Nibble) :
    OutputBound (tokenStep offset rawLen s) := by
  have hle := hb.of_group (.inr (.inl hp))
  have hend := hb.le_bound hs (.inr (.inr hp))
  obtain ⟨hkind, hheader, _⟩ := hs.onPayload_of_unit (.inr (.inr hp))
  have hlen := (actualLength_range rawLen).2
  rcases tokenStep_cases offset rawLen s with ⟨_, he⟩ | ⟨_, _, he⟩ | ⟨_, _, he⟩
  · rw [he]
    exact .compressedEnd rfl hkind hend
  · rw [he]
    exact .compressedEnd rfl hkind hend
  · rw [he]
    refine .inGroup (.inr (.inr rfl)) ?_
    simp only [State.startCopy_out, State.startCopy_copyRemaining, State.startCopy_cur, State.startCopy_bitIndex,
      State.storeToken_out, State.storeToken_cur, State.storeToken_bitIndex]
    omega

/-- The COPY step turns a byte to come into a byte of output. -/
theorem OutputBound.copyStep (hs : s.Inv) (hp : s.phase = .copy) : OutputBound (copyStep s) := by
  have hpos := (hs.copyRange hp).1
  have hle : (Machine.copyStep s).out.length + (Machine.copyStep s).copyRemaining + 8 ≤
      8 * ((Machine.copyStep s).cur - 16) + (Machine.copyStep s).bitIndex := by
    have hbefore := hb.of_group (.inr (.inr hp))
    have hrem : (Machine.copyStep s).copyRemaining = s.copyRemaining - 1 := by rw [copyStep_eq]
    simp only [copyStep_frame, hrem, List.length_append, List.length_singleton]
    omega
  rcases copyStep_cases s with ⟨_, he⟩ | ⟨_, he⟩
  · exact .of_nextToken (by simp [he]) hle
  · exact .inGroup (.inr (.inr (by simp [he, hp]))) hle

/-- Every step keeps the output bounded. -/
theorem OutputBound.step {t : State} (hs : s.Inv) (h : step s = .next t) : OutputBound t := by
  cases step_cases h with
  | shortHeader hp => exact .failed rfl _ rfl (hs.headerFirst hp).2.1
  | header hp _ hd =>
    have hout : (headerStep hd s).out = [] := by simpa [headerStep_frame] using (hs.headerFirst hp).2.1
    cases headerStep_exit hd s with
    | failed hdone _ e hr => exact .failed hdone e hr hout
    | passThrough he => exact .passing (by rw [he]; rfl)
    | compressedPath _ he => exact .atControl (by rw [he]) (by simp [hout])
  | raw hp => exact .passing hp
  | passEnd hp hn =>
    obtain ⟨hkind, _, hout⟩ := hs.passOutput hp
    refine .passEnd rfl hkind ?_
    simp [passEndStep, hout, Nat.min_eq_right hn]
  | ctrl hp =>
    have hle := hb.of_ctrl hp
    have hidle := hs.copyIdle (by simp [hp])
    have hheader := (hs.onPayload_of_unit (.inl hp)).header_le
    refine .of_nextToken rfl ?_
    simp only [State.toNextToken_out, State.toNextToken_copyRemaining, State.toNextToken_cur,
      State.toNextToken_bitIndex, State.advanceCur_out, State.advanceCur_copyRemaining, State.advanceCur_cur]
    omega
  | lit hp _ b =>
    have hle := hb.of_group (.inl hp)
    have hheader := (hs.onPayload_of_unit (.inr (.inl hp))).header_le
    have hlen : (s.out ++ [b]).length = s.out.length + 1 := List.length_append
    refine .of_nextToken rfl ?_
    simp only [State.toNextToken_out, State.toNextToken_copyRemaining, State.toNextToken_cur,
      State.toNextToken_bitIndex, State.advanceBit_out, State.advanceBit_copyRemaining, State.advanceBit_cur,
      State.advanceBit_bitIndex, State.produce_out, State.produce_copyRemaining, State.produce_cur,
      State.produce_bitIndex, State.advanceCur_out, State.advanceCur_copyRemaining, State.advanceCur_cur,
      State.advanceCur_bitIndex, hlen]
    omega
  | token hp => exact hb.tokenStep hs hp _ _
  | softByte hp =>
    have hunit : s.phase = .ctrl ∨ s.phase = .lit ∨ s.phase = .ref := hp.imp_right .inl
    exact .compressedEnd rfl (hs.onPayload_of_unit hunit).kind_eq (hb.le_bound hs hunit)
  | softToken hp =>
    have hunit : s.phase = .ctrl ∨ s.phase = .lit ∨ s.phase = .ref := .inr (.inr hp)
    exact .compressedEnd rfl (hs.onPayload_of_unit hunit).kind_eq (hb.le_bound hs hunit)
  | copy hp => exact hb.copyStep hs hp

/-- Under a Compressed header the output is bounded all along. -/
theorem OutputBound.of_compressed (hs : s.Inv) (hk : s.hdr.kind = some .compressed) :
    s.out.length ≤ 8 * (s.bound - 16) := by
  cases hb with
  | atHeader hp => simp [(hs.headerFirst hp).2.2] at hk
  | passing hp => simp [(hs.passOutput hp).1] at hk
  | atControl hp => exact OutputBound.le_bound (.atControl hp ‹_›) hs (.inl hp)
  | inGroup hp hle =>
    have hbit := hs.bitIndexRange
    have hpath : s.phase.inCompressedPath = true := by
      rcases hp with hp | hp | hp <;> simp [hp, Phase.inCompressedPath]
    have hcur := (hs.onCompressedPayload hpath).le_bound
    omega
  | compressedEnd _ _ hle => exact hle
  | passEnd _ hother => simp [hother] at hk
  | failed _ _ _ ho => simp [ho]

/-- At the end of a pass-through the output is as long as the payload. -/
theorem OutputBound.of_passThrough (hk : s.hdr.kind = some .uncompressed) (hp : s.phase = .done)
    {bytes : List Byte} (hr : s.result = some (.ok bytes)) : s.out.length = s.input.length - 16 := by
  cases hb with
  | passEnd _ _ hlen => exact hlen
  | compressedEnd _ hother => simp [hother] at hk
  | failed _ e he => simp [hr] at he
  | _ => simp_all

end Phases

/-- A run never changes its input. -/
theorem run_input {k : Nat} {s t : State} (h : Host.Core.run core k s = .next t) : t.input = s.input :=
  run_induction (P := fun u => u.input = s.input) (fun hu hstep => (step_params_input hstep).2.trans hu) rfl h

/-- Every state of a run meets the invariant and has its output bounded. -/
theorem outputBound_of_run {p : Params} {input : List Byte} {k : Nat} {t : State} (h : runFrom p input k = .next t) :
    t.Inv ∧ OutputBound t :=
  run_induction (P := fun u => u.Inv ∧ OutputBound u)
    (fun hu hstep => ⟨inv_of_step hu.1 hstep, hu.2.step hu.1 hstep⟩) ⟨inv_start p input, .atHeader rfl⟩ h

end Sys2Proof.Machine

open Sys2Proof Sys2Proof.Machine

/-- Settles O51: the bound holds at the start and is kept with the invariant by every step. -/
theorem outputLengthBounds : Obligations.OutputLengthBounds := by
  intro p input k t h
  obtain ⟨hinv, hb⟩ := outputBound_of_run h
  have hinput : t.input = input := run_input h
  exact ⟨hb.of_compressed hinv, fun hk hp hr => hinput ▸ hb.of_passThrough hk hp hr⟩

end

section
/-!
PROOFS. The advisory fields decide nothing (40_header_parser.md): changing `rawSize` and `checksum`, in the registers
and in the input's header, changes no step but by that change itself.
-/

namespace Sys2Proof.Machine

/-! ### Dictionary reads in states that agree on the dictionary (00_scope.md R12) -/

/-- What a dictionary read answers, and whether it draws, depends on the dictionary, the write position, `DICT_FILL` and
the draw counter only. -/
theorem dictRead_congr {s t : State} (hparams : t.params = s.params) (hdict : t.dict = s.dict)
    (hwrapped : t.wrapped = s.wrapped) (hw : t.w = s.w) (hdraws : t.draws = s.draws) (i : DictIndex) :
    (t.dictRead i).1 = (s.dictRead i).1 ∧ (t.dictRead i).2.draws = (s.dictRead i).2.draws := by
  have hcell : t.cellValue i = s.cellValue i := by
    rw [State.cellValue, State.written, hwrapped, hw, hdict]
    rfl
  rw [State.dictRead, State.dictRead, hcell]
  cases s.cellValue i with
  | some v => exact ⟨rfl, hdraws⟩
  | none =>
    simp only [State.unwrittenValue, hparams]
    cases s.params.dictFill with
    | some v => exact ⟨rfl, hdraws⟩
    | none => simp [State.drawU8, hdraws]

/-! ### A change of the advisory fields -/

/-- The same state on the input `input`, with other values in the advisory registers. -/
def State.withAdvisory (s : State) (input : List Byte) (rawSize checksum : Word32) : State :=
  { s with input := input, hdr := { s.hdr with rawSize := rawSize, checksum := checksum } }

/-- What a step answers, its next state changed by `f`. -/
def mapNext (f : State → State) : Host.Outcome State Fault Refusal → Host.Outcome State Fault Refusal
  | .next s => .next (f s)
  | .fault e => .fault e
  | .refused e => .refused e

theorem nextState_mapNext (f : State → State) (o : Host.Outcome State Fault Refusal) :
    nextState (mapNext f o) = (nextState o).map f := by
  cases o <;> rfl

section Operations
variable (s : State) (input : List Byte) (rawSize checksum : Word32)

theorem State.withAdvisory_r : (s.withAdvisory input rawSize checksum).r = s.r := rfl

theorem State.withAdvisory_params : (s.withAdvisory input rawSize checksum).params = s.params := rfl

theorem tokenStep_withAdvisory (offset : DictIndex) (rawLen : Nibble) :
    tokenStep offset rawLen (s.withAdvisory input rawSize checksum) =
      (tokenStep offset rawLen s).withAdvisory input rawSize checksum := by
  rw [tokenStep_eq, tokenStep_eq, apply_ite (State.withAdvisory · input rawSize checksum),
    apply_ite (State.withAdvisory · input rawSize checksum)]
  rfl

theorem copyStep_withAdvisory :
    copyStep (s.withAdvisory input rawSize checksum) = (copyStep s).withAdvisory input rawSize checksum := by
  obtain ⟨hbyte, hdraws⟩ := dictRead_congr (t := s.withAdvisory input rawSize checksum) (s := s)
    rfl rfl rfl rfl rfl s.r
  rw [copyStep_eq, copyStep_eq, copyByte_eq, copyByte_eq, State.withAdvisory_r, hbyte, hdraws]
  rfl

/-- No instruction of the payload reads the advisory fields. -/
theorem effect_withAdvisory {i : Instr} (hi : i.phase ≠ .header) :
    effect i (s.withAdvisory input rawSize checksum) = (effect i s).withAdvisory input rawSize checksum := by
  cases i with
  | hdrLzfu => exact absurd rfl hi
  | hdrMela => exact absurd rfl hi
  | raw => rfl
  | ctrl => rfl
  | lit => rfl
  | ref offset rawLen => exact tokenStep_withAdvisory s input rawSize checksum offset rawLen
  | endRef offset rawLen => exact tokenStep_withAdvisory s input rawSize checksum offset rawLen

theorem exec_withAdvisory (i : Instr) (hp : s.phase ≠ .header) :
    exec i (s.withAdvisory input rawSize checksum) =
      mapNext (·.withAdvisory input rawSize checksum) (exec i s) := by
  by_cases hi : s.phase = i.phase
  · rw [exec_of_phase hi, exec_of_phase (s := s.withAdvisory input rawSize checksum) hi,
      effect_withAdvisory s input rawSize checksum (hi ▸ hp), mapNext]
  · rw [exec_of_phase_ne hi, exec_of_phase_ne (s := s.withAdvisory input rawSize checksum) hi, mapNext]

theorem enterPayload_withAdvisory (hlen : input.length = s.input.length) (k : Kind) :
    (s.withAdvisory input rawSize checksum).enterPayload k =
      (s.enterPayload k).withAdvisory input rawSize checksum := by
  cases k with
  | compressed => simp [State.enterPayload, State.withAdvisory, hlen]
  | uncompressed => rfl

end Operations

/-- The HEADER step reads the declared size and the kind, and stores the advisory fields it is given. -/
theorem headerStep_withAdvisory {s : State} {input : List Byte} (hlen : input.length = s.input.length) (h : RawHeader)
    (rawSize checksum r c : Word32) :
    headerStep { h with rawSize := rawSize, checksum := checksum } (s.withAdvisory input r c) =
      (headerStep h s).withAdvisory input rawSize checksum := by
  have hstore : (s.withAdvisory input r c).storeHeader { h with rawSize := rawSize, checksum := checksum } =
      (s.storeHeader h).withAdvisory input rawSize checksum := rfl
  have hkind (k : Kind) : ((s.storeHeader h).withAdvisory input rawSize checksum).setKind k =
      ((s.storeHeader h).setKind k).withAdvisory input rawSize checksum := rfl
  have hraise (u : State) (e : RunError) : (u.withAdvisory input rawSize checksum).raise e =
      (u.raise e).withAdvisory input rawSize checksum := rfl
  have henter (k : Kind) := enterPayload_withAdvisory ((s.storeHeader h).setKind k) input rawSize checksum hlen
  simp only [headerStep_eq, hstore, hkind, hraise, henter, State.withAdvisory_params,
    apply_ite (State.withAdvisory · input rawSize checksum)]

/-! ### The step (40_header_parser.md, 30_encoding.md R65) -/

/-- Only the HEADER format has bytes that name no row (30_encoding.md R68). -/
theorem decode_ne_illegalKind {f : Format} (hf : f ≠ .header) (w : DictIndex) (bytes : List Byte) (h : RawHeader) :
    decode f w bytes ≠ .error (.illegalKind h) := by
  cases f with
  | header => exact absurd rfl hf
  | raw => cases bytes <;> nofun
  | control => cases bytes <;> nofun
  | literal => cases bytes <;> nofun
  | reference => rcases bytes with _ | ⟨b0, _ | ⟨b1, rest⟩⟩ <;> nofun

theorem fetchUnit_ne_illegalHeader {s : State} {f : Format} (hf : f ≠ .header) (h : RawHeader) :
    s.fetchUnit f ≠ .illegalHeader h := by
  unfold State.fetchUnit
  split
  · simp
  · exact absurd ‹_› (decode_ne_illegalKind hf _ _ _)
  · simp

/-- After the header no header is fetched. -/
theorem fetch_ne_illegalHeader {s : State} (hp : s.phase ≠ .header) (h : RawHeader) : s.fetch ≠ .illegalHeader h := by
  have hbounded {f : Format} (hf : f ≠ .header) : s.fetchBounded f ≠ .illegalHeader h := by
    unfold State.fetchBounded
    split
    · exact fetchUnit_ne_illegalHeader hf h
    · simp
  unfold State.fetch
  cases hq : s.phase with
  | header => exact absurd hq hp
  | pass =>
    simp only
    split
    · exact fetchUnit_ne_illegalHeader (by simp) h
    · simp
  | ctrl => exact hbounded (by simp)
  | lit => exact hbounded (by simp)
  | ref => exact hbounded (by simp)
  | copy => simp
  | done => simp

/-- `input` differs from the state's input, if at all, in front of the cursor of a run that goes on. -/
structure SamePayload (input : List Byte) (s : State) : Prop where
  inv : s.Inv
  phase_ne : s.phase ≠ .header
  length_eq : input.length = s.input.length
  rest_eq : s.phase ≠ .done → input.drop s.cur = s.inputRest

theorem SamePayload.step {input : List Byte} {s t : State} (hs : SamePayload input s) (h : step s = .next t) :
    SamePayload input t where
  inv := inv_of_step hs.inv h
  phase_ne := (phaseInv_of_step hs.inv h).phase_ne_header
  length_eq := by rw [hs.length_eq, (step_params_input h).2]
  rest_eq hp := by
    have hle : s.cur ≤ t.cur := by
      rcases step_cur h with ⟨hcur, _⟩ | ⟨hcur, _, _⟩ <;> omega
    have hrest := hs.rest_eq (phase_ne_done_of_step h)
    rw [State.inputRest] at hrest ⊢
    rw [(step_params_input h).2, ← Nat.add_sub_of_le hle, ← List.drop_drop, hrest, List.drop_drop]

/-- Where the payload is the same, the same unit is fetched. -/
theorem SamePayload.fetch_eq {input : List Byte} {s : State} (hs : SamePayload input s) (rawSize checksum : Word32) :
    (s.withAdvisory input rawSize checksum).fetch = s.fetch := by
  by_cases hdone : s.phase = .done
  · have hdone' : (s.withAdvisory input rawSize checksum).phase = .done := hdone
    simp only [State.fetch, hdone, hdone']
  · have hrest : (s.withAdvisory input rawSize checksum).inputRest = s.inputRest := hs.rest_eq hdone
    have hunit (f : Format) : (s.withAdvisory input rawSize checksum).fetchUnit f = s.fetchUnit f := by
      rw [State.fetchUnit, hrest]
      rfl
    have hlen : (s.withAdvisory input rawSize checksum).input.length = s.input.length := hs.length_eq
    simp only [State.fetch, State.fetchBounded, hunit, hlen]
    rfl

/-- After the header a step with the advisory fields changed is the step, with them changed. -/
theorem SamePayload.step_withAdvisory {input : List Byte} {s : State} (hs : SamePayload input s)
    (rawSize checksum : Word32) :
    Machine.step (s.withAdvisory input rawSize checksum) =
      mapNext (·.withAdvisory input rawSize checksum) (Machine.step s) := by
  unfold Machine.step
  rw [hs.fetch_eq]
  cases hf : s.fetch with
  | instr i => exact exec_withAdvisory s input rawSize checksum i hs.phase_ne
  | shortHeader => rfl
  | illegalHeader h => exact absurd hf (fetch_ne_illegalHeader hs.phase_ne h)
  | passEnd => rfl
  | exhausted => rfl
  | copy => exact congrArg Host.Outcome.next (copyStep_withAdvisory s input rawSize checksum)
  | ended => rfl
  | outOfRange => rfl

/-- And so is a run. -/
theorem SamePayload.run_withAdvisory {input : List Byte} {s : State} (hs : SamePayload input s)
    (rawSize checksum : Word32) (k : Nat) :
    Host.Core.run core k (s.withAdvisory input rawSize checksum) =
      mapNext (·.withAdvisory input rawSize checksum) (Host.Core.run core k s) := by
  induction k generalizing s with
  | zero => rfl
  | succ k ih =>
    have hstep : core.step (s.withAdvisory input rawSize checksum) =
        mapNext (·.withAdvisory input rawSize checksum) (core.step s) := hs.step_withAdvisory rawSize checksum
    simp only [Host.Core.run, hstep]
    cases hu : core.step s with
    | next u => exact ih (hs.step hu)
    | fault e => rfl
    | refused e => rfl

/-! ### Two runs whose inputs differ in the advisory bytes -/

/-- The inputs agree on the declared size, the kind and the payload. -/
structure AdvisoryChange (in1 in2 : List Byte) : Prop where
  length_eq : in1.length = in2.length
  same : ∀ i, i < 4 ∨ (8 ≤ i ∧ i < 12) ∨ 16 ≤ i → in1[i]? = in2[i]?

/-- What a claim about two runs observes of a state. -/
def State.observed (t : State) : Option RunResult × TermReason × List Byte × Phase :=
  (t.result, t.termReason, t.out, t.phase)

/-- The header of an input of 16 bytes or more (40_header_parser.md R87). -/
def headerFields (bytes : List Byte) : RawHeader :=
  ⟨headerField bytes 0, headerField bytes 1, headerField bytes 2, headerField bytes 3⟩

theorem step_start_of_header (p : Params) {input : List Byte} (hlen : 16 ≤ input.length) :
    step (State.start p input) = .next (headerStep (headerFields input) (State.start p input)) :=
  step_of_header (s := State.start p input) rfl (readHeader_eq_headerFields hlen)

/-- After the first step only the payload is left to agree on. -/
theorem samePayload_of_first_step {p : Params} {in1 in2 : List Byte} {u : State}
    (h : step (State.start p in1) = .next u) (hlen : in1.length = in2.length)
    (hrest : u.phase ≠ .done → in2.drop u.cur = u.inputRest) : SamePayload in2 u where
  inv := inv_of_step (inv_start p in1) h
  phase_ne := (phaseInv_of_step (inv_start p in1) h).phase_ne_header
  length_eq := by
    rw [(step_params_input h).2]
    exact hlen.symm
  rest_eq := hrest

section AdvisoryChange
variable {in1 in2 : List Byte} (hc : AdvisoryChange in1 in2)
include hc

theorem AdvisoryChange.drop_eq : in2.drop 16 = in1.drop 16 := by
  refine List.ext_getElem? fun i => ?_
  rw [List.getElem?_drop, List.getElem?_drop, hc.same (16 + i) (by omega)]

/-- The first and the third field are read from bytes that agree. -/
theorem AdvisoryChange.headerField_eq {k : Nat} (hk : k = 0 ∨ k = 2) : headerField in2 k = headerField in1 k := by
  simp only [headerField, List.getD_eq_getElem?_getD]
  rw [hc.same (4 * k) (by omega), hc.same (4 * k + 1) (by omega), hc.same (4 * k + 2) (by omega),
    hc.same (4 * k + 3) (by omega)]

theorem AdvisoryChange.headerFields_eq :
    headerFields in2 =
      { headerFields in1 with rawSize := headerField in2 1, checksum := headerField in2 3 } := by
  simp only [headerFields, hc.headerField_eq (.inl rfl), hc.headerField_eq (.inr rfl)]

/-- The first steps of the two runs go to states that differ in the advisory fields only. -/
theorem AdvisoryChange.first_step (p : Params) :
    ∃ u rawSize checksum, step (State.start p in1) = .next u ∧ SamePayload in2 u ∧
      step (State.start p in2) = .next (u.withAdvisory in2 rawSize checksum) := by
  by_cases hn : in1.length < 16
  · have h1 := step_of_shortInput (s := State.start p in1) rfl hn
    have h2 := step_of_shortInput (s := State.start p in2) rfl (hc.length_eq ▸ hn)
    exact ⟨_, 0#32, 0#32, h1, samePayload_of_first_step h1 hc.length_eq fun hp => absurd rfl hp, h2⟩
  · have hlen : 16 ≤ in1.length := Nat.not_lt.1 hn
    have h1 := step_start_of_header p hlen
    have hsame : headerStep (headerFields in2) (State.start p in2) =
        (headerStep (headerFields in1) (State.start p in1)).withAdvisory in2 (headerField in2 1)
          (headerField in2 3) := by
      rw [hc.headerFields_eq]
      exact headerStep_withAdvisory (s := State.start p in1) hc.length_eq.symm _ _ _ 0#32 0#32
    refine ⟨_, _, _, h1, samePayload_of_first_step h1 hc.length_eq fun _ => ?_,
      (step_start_of_header p (hc.length_eq ▸ hlen)).trans (congrArg Host.Outcome.next hsame)⟩
    simpa [headerStep_frame, State.inputRest, State.start] using hc.drop_eq

/-- After any number of steps the two runs are observed alike. -/
theorem AdvisoryChange.observed_eq (p : Params) (k : Nat) :
    (nextState (runFrom p in1 k)).map State.observed = (nextState (runFrom p in2 k)).map State.observed := by
  cases k with
  | zero => rfl
  | succ k =>
    obtain ⟨u, rawSize, checksum, h1, hsame, h2⟩ := hc.first_step p
    have hrun1 : runFrom p in1 (k + 1) = Host.Core.run core k u := run_succ_of_step (M := core) h1 k
    have hrun2 : runFrom p in2 (k + 1) = mapNext (·.withAdvisory in2 rawSize checksum) (runFrom p in1 (k + 1)) := by
      rw [hrun1, ← hsame.run_withAdvisory]
      exact run_succ_of_step (M := core) h2 k
    rw [hrun2, nextState_mapNext, Option.map_map]
    rfl

end AdvisoryChange

/-- The HEADER step stores the advisory fields as read, on success and on error (40_header_parser.md R87, log 11). -/
theorem headerStep_advisory (h : RawHeader) (s : State) :
    (headerStep h s).hdr.rawSize = h.rawSize ∧ (headerStep h s).hdr.checksum = h.checksum := by
  rcases headerStep_cases h s with ⟨_, _, he⟩ | ⟨_, he⟩ | ⟨k, _, _, he⟩ | ⟨k, _, _, he⟩
  · simp [he]
  · simp [he]
  · simp [he]
  · cases k <;> simp [he, State.enterPayload]

end Sys2Proof.Machine

open Sys2Proof Sys2Proof.Machine

/-- Settles O52: the second run is the first with the advisory fields changed, by induction on its length. -/
theorem advisoryFieldsDecideNothing : Obligations.AdvisoryFieldsDecideNothing := by
  refine ⟨fun p in1 in2 hlen hsame k => AdvisoryChange.observed_eq ⟨hlen, hsame⟩ p k, fun p input h rest hr => ?_⟩
  have hstep := step_of_header (s := State.start p input) rfl hr
  obtain ⟨hrawSize, hchecksum⟩ := headerStep_advisory h (State.start p input)
  exact ⟨_, run_succ_of_step (M := core) hstep 0, hrawSize, hchecksum⟩

end

section
/-!
PROOFS. A run computes the functional form (42_compressed_path.md R116): the steps of a group, and of its copies, are
the turns of the loops over the same primitives.
-/

namespace Sys2Proof.Machine

/-! ### Runs that end with a result -/

/-- A run from `s` ends with the result `res`. -/
def EndsWith (s : State) (res : RunResult) : Prop :=
  ∃ k t, Host.Core.run core k s = .next t ∧ t.phase = .done ∧ t.result = some res

theorem EndsWith.of_run {s u : State} {k : Nat} {res : RunResult} (hu : EndsWith u res)
    (h : Host.Core.run core k s = .next u) : EndsWith s res := by
  obtain ⟨j, t, hrun, hdone, hres⟩ := hu
  exact ⟨k + j, t, (run_add h j).trans hrun, hdone, hres⟩

/-- A run of the machine is its first step, then the rest. -/
theorem run_step {s t : State} (h : step s = .next t) (k : Nat) :
    Host.Core.run core (k + 1) s = Host.Core.run core k t :=
  run_succ_of_step (M := core) h k

theorem run_one {s t : State} (h : step s = .next t) : Host.Core.run core 1 s = .next t :=
  run_step h 0

theorem endsWith_of_step {s t : State} {res : RunResult} (h : step s = .next t) (hdone : t.phase = .done)
    (hres : t.result = some res) : EndsWith s res :=
  ⟨1, t, run_one h, hdone, hres⟩

/-! ### The registers that the loops keep in their variables -/

/-- The machine in phase `p` of a group, where the loops have the state `f`: the control byte, the last token, the bytes
of the copy still to move and the index of the next token are registers. -/
def groupState (f : State) (p : Phase) (c : Byte) (tok : Token) (n i : Nat) : State :=
  { f with phase := p, ctrl := c, tok := tok, copyRemaining := n, bitIndex := i }

/-- A byte of a copy is the same in the machine and in the loop. -/
theorem copyByte_groupState (f : State) (p : Phase) (c : Byte) (tok : Token) (n i : Nat) :
    copyByte (groupState f p c tok n i) = groupState (copyByte f) p c tok n i := by
  obtain ⟨hbyte, hdraws⟩ := dictRead_congr (t := groupState f p c tok n i) (s := f) rfl rfl rfl rfl rfl f.r
  have hr : (groupState f p c tok n i).r = f.r := rfl
  rw [copyByte_eq, copyByte_eq, hr, hbyte, hdraws]
  rfl

/-- The COPY steps of a copy are the turns of its loop; the next token follows. -/
theorem run_copyBytes (c : Byte) (tok : Token) (i : Nat) {n : Nat} (hn : 0 < n) (f : State) :
    Host.Core.run core n (groupState f .copy c tok n i) =
      .next (groupState (copyBytes n f) (nextTokenPhase c i) c tok 0 i) := by
  induction n generalizing f with
  | zero => exact absurd hn (Nat.lt_irrefl 0)
  | succ n ih =>
    have hstep : step (groupState f .copy c tok (n + 1) i) =
        .next (groupState (copyByte f) (if n = 0 then nextTokenPhase c i else .copy) c tok n i) := by
      rw [step_of_copy rfl, copyStep_eq, copyByte_groupState]
      rfl
    rw [run_step hstep n]
    by_cases h0 : n = 0
    · subst h0
      rfl
    · rw [if_neg h0]
      exact ih (Nat.pos_of_ne_zero h0) (copyByte f)

/-- The copy's loop touches neither the input nor the cursor. -/
theorem copyBytes_frame (n : Nat) (f : State) :
    (copyBytes n f).input = f.input ∧ (copyBytes n f).bound = f.bound ∧ (copyBytes n f).cur = f.cur := by
  induction n generalizing f with
  | zero => exact ⟨rfl, rfl, rfl⟩
  | succ n ih => simpa [copyBytes] using ih (copyByte f)

/-! ### The turns of the loops -/

/-- The turns of the token loop with `n + 1` tokens left. -/
inductive TokenTurn (c : Byte) (n : Nat) (f : State) : Prop where
  /-- The input lacks the token's bytes (42_compressed_path.md R112). -/
  | lack (hl : (groupState f (nextTokenPhase c (8 - (n + 1))) c 0#16 0 (8 - (n + 1))).LacksUnit)
      (he : groupTokens c (n + 1) f = .error (.ok f.out))
  /-- A literal (42_compressed_path.md R104). -/
  | lit (hbit : controlBit c (8 - (n + 1)) = false) (ha : f.cur + 1 ≤ f.bound)
      (he : groupTokens c (n + 1) f = groupTokens c n ((f.advanceCur 1).produce (f.input.getD f.cur 0#8)))
  /-- A token, to be read as `tokenStep` does (42_compressed_path.md R106). -/
  | token (hbit : controlBit c (8 - (n + 1)) = true) (ha : f.cur + 2 ≤ f.bound) (b0 b1 : Byte) (rest : List Byte)
      (hr : f.inputRest = b0 :: b1 :: rest)
      (he : groupTokens c (n + 1) f =
        if f.isSentinel (tokenOffset (be16 b0 b1)) then .error (.ok f.out)
        else if f.strictViolation (tokenOffset (be16 b0 b1)) then .error (.err .invalidDictionaryReference)
        else groupTokens c n (copyBytes (actualLength (tokenRawLen (be16 b0 b1)))
          { f.advanceCur 2 with r := tokenOffset (be16 b0 b1) }))

theorem groupTokens_turn (c : Byte) {n : Nat} (hn : n < 8) {f : State} (hb : f.bound ≤ f.input.length) :
    TokenTurn c n f := by
  have hne : 8 - (n + 1) ≠ 8 := by omega
  cases hbit : controlBit c (8 - (n + 1)) with
  | false =>
    have hphase := (nextTokenPhase_eq_lit c (8 - (n + 1))).2 ⟨hne, hbit⟩
    by_cases ha : f.cur + 1 ≤ f.bound
    · refine .lit hbit ha ?_
      simp only [groupTokens, hbit, inputRest_eq_cons (ha.trans hb), inAvail_iff.2 ha, Bool.false_eq_true, if_false,
        if_true]
    · have hlack := Nat.not_le.1 ha
      refine .lack (.inr (.inl ⟨hphase, hlack⟩)) ?_
      simp only [groupTokens, hbit, inAvail_eq_false_iff.2 hlack]
      cases f.inputRest <;> rfl
  | true =>
    have hphase := (nextTokenPhase_eq_ref c (8 - (n + 1))).2 ⟨hne, hbit⟩
    by_cases ha : f.cur + 2 ≤ f.bound
    · have hr := inputRest_eq_cons_cons (ha.trans hb)
      refine .token hbit ha _ _ _ hr ?_
      simp only [groupTokens, hbit, hr, inAvail_iff.2 ha, if_true]
    · have hlack := Nat.not_le.1 ha
      refine .lack (.inr (.inr ⟨hphase, hlack⟩)) ?_
      simp only [groupTokens, hbit, inAvail_eq_false_iff.2 hlack]
      rcases f.inputRest with _ | ⟨b0, _ | ⟨b1, rest⟩⟩ <;> rfl

/-- A group that the token loop completes has moved the cursor on, in the same input. -/
theorem groupTokens_ok_frame {c : Byte} {n : Nat} (hn : n ≤ 8) {f g : State} (hb : f.bound ≤ f.input.length)
    (h : groupTokens c n f = .ok g) : g.input = f.input ∧ g.bound = f.bound ∧ f.cur ≤ g.cur := by
  induction n generalizing f with
  | zero =>
    cases h
    exact ⟨rfl, rfl, Nat.le_refl _⟩
  | succ n ih =>
    cases groupTokens_turn c hn hb with
    | lack _ he => simp [he] at h
    | lit _ _ he =>
      obtain ⟨hinput, hbound, hcur⟩ := ih (Nat.le_of_succ_le hn) (by simpa using hb) (he ▸ h)
      exact ⟨hinput, hbound, Nat.le_of_succ_le hcur⟩
    | token _ _ b0 b1 _ _ he =>
      rw [he] at h
      split at h
      · cases h
      · split at h
        · cases h
        · obtain ⟨hinput, hbound, hcur⟩ := ih (Nat.le_of_succ_le hn) (by simpa [copyBytes_frame] using hb) h
          simp only [copyBytes_frame] at hinput hbound hcur
          exact ⟨hinput, hbound, Nat.le_of_add_right_le hcur⟩

/-! ### The machine runs the loops -/

/-- The run from `s` does what the token loop answers: it ends with the result, or completes the group. -/
def RunsGroup (c : Byte) (s : State) : Except RunResult State → Prop
  | .error res => EndsWith s res
  | .ok f => ∃ k tok, Host.Core.run core k s = .next (groupState f .ctrl c tok 0 8)

theorem RunsGroup.of_run {c : Byte} {s u : State} {k : Nat} {x : Except RunResult State} (hu : RunsGroup c u x)
    (h : Host.Core.run core k s = .next u) : RunsGroup c s x := by
  cases x with
  | error res => exact EndsWith.of_run hu h
  | ok f =>
    obtain ⟨j, tok, hrun⟩ := hu
    exact ⟨k + j, tok, (run_add h j).trans hrun⟩

/-- From token `8 - n` on, the machine runs the token loop. -/
theorem runsGroup_groupTokens (c : Byte) {n : Nat} (hn : n ≤ 8) {f : State} (hb : f.bound ≤ f.input.length)
    (tok : Token) : RunsGroup c (groupState f (nextTokenPhase c (8 - n)) c tok 0 (8 - n)) (groupTokens c n f) := by
  induction n generalizing f tok with
  | zero => exact ⟨0, tok, rfl⟩
  | succ n ih =>
    have hle : n ≤ 8 := Nat.le_of_succ_le hn
    have hne : 8 - (n + 1) ≠ 8 := by omega
    have hnext : 8 - (n + 1) + 1 = 8 - n := by omega
    cases groupTokens_turn c hn hb with
    | lack hl he =>
      rw [he]
      exact endsWith_of_step (step_of_lacksUnit hl) rfl rfl
    | lit hbit ha he =>
      rw [he, (nextTokenPhase_eq_lit c _).2 ⟨hne, hbit⟩]
      have hstep := step_of_literalByte (s := groupState f .lit c tok 0 (8 - (n + 1))) rfl ha hb
      refine (ih hle (f := (f.advanceCur 1).produce (f.input.getD f.cur 0#8)) hb tok).of_run ((run_one hstep).trans ?_)
      rw [← hnext]
      rfl
    | token hbit ha b0 b1 rest hr he =>
      rw [he, (nextTokenPhase_eq_ref c _).2 ⟨hne, hbit⟩]
      have hstep := step_of_tokenBytes (s := groupState f .ref c tok 0 (8 - (n + 1))) rfl ha hr
      by_cases hs : f.isSentinel (tokenOffset (be16 b0 b1)) = true
      · rw [if_pos hs]
        exact endsWith_of_step (hstep.trans (congrArg _ (if_pos hs))) rfl rfl
      · rw [if_neg hs]
        by_cases hv : f.strictViolation (tokenOffset (be16 b0 b1)) = true
        · rw [if_pos hv]
          exact endsWith_of_step (hstep.trans (congrArg _ ((if_neg hs).trans (if_pos hv)))) rfl rfl
        · rw [if_neg hv]
          have hcopy := hstep.trans (congrArg _ ((if_neg hs).trans (if_neg hv)))
          have hlen : 0 < actualLength (tokenRawLen (be16 b0 b1)) := Nat.succ_pos _
          have hrun := run_copyBytes c (mkToken (tokenOffset (be16 b0 b1)) (tokenRawLen (be16 b0 b1))) (8 - n) hlen
            { f.advanceCur 2 with r := tokenOffset (be16 b0 b1) }
          refine ((ih hle (by simpa [copyBytes_frame] using hb) _).of_run hrun).of_run ((run_one hcopy).trans ?_)
          rw [← hnext]
          rfl

/-- A turn of the group loop ends with the result of its group, or goes on after it. -/
theorem groupLoop_succ {fuel : Nat} {f : State} (ha : f.cur + 1 ≤ f.bound) (hb : f.bound ≤ f.input.length) :
    (∀ res, groupTokens (f.input.getD f.cur 0#8) 8 (f.advanceCur 1) = .error res → groupLoop (fuel + 1) f = res) ∧
    (∀ g, groupTokens (f.input.getD f.cur 0#8) 8 (f.advanceCur 1) = .ok g →
      groupLoop (fuel + 1) f = groupLoop fuel g) := by
  refine ⟨fun res hx => ?_, fun g hx => ?_⟩
  · simp only [groupLoop, inputRest_eq_cons (ha.trans hb), inAvail_iff.2 ha, if_true, hx]
  · simp only [groupLoop, inputRest_eq_cons (ha.trans hb), inAvail_iff.2 ha, if_true, hx]

/-- Without a control byte the group loop delivers the output, whatever the fuel. -/
theorem groupLoop_of_lack (fuel : Nat) {f : State} (hl : f.bound < f.cur + 1) : groupLoop fuel f = .ok f.out := by
  cases fuel with
  | zero => rfl
  | succ fuel =>
    simp only [groupLoop, inAvail_eq_false_iff.2 hl]
    cases f.inputRest <;> rfl

theorem endsWith_groupLoop_of_lack (fuel : Nat) {f : State} (hl : f.bound < f.cur + 1) (c : Byte) (tok : Token)
    (i : Nat) : EndsWith (groupState f .ctrl c tok 0 i) (groupLoop fuel f) := by
  rw [groupLoop_of_lack fuel hl]
  exact endsWith_of_step (step_of_lacksUnit (.inl ⟨rfl, hl⟩)) rfl rfl

/-- With fuel for every byte left, the machine runs the group loop to its end. -/
theorem endsWith_groupLoop {fuel : Nat} {f : State} (hb : f.bound ≤ f.input.length) (hfuel : f.bound ≤ f.cur + fuel)
    (c : Byte) (tok : Token) (i : Nat) : EndsWith (groupState f .ctrl c tok 0 i) (groupLoop fuel f) := by
  induction fuel generalizing f c tok i with
  | zero => exact endsWith_groupLoop_of_lack 0 (Nat.lt_succ_of_le hfuel) c tok i
  | succ fuel ih =>
    by_cases hl : f.bound < f.cur + 1
    · exact endsWith_groupLoop_of_lack (fuel + 1) hl c tok i
    · have ha : f.cur + 1 ≤ f.bound := Nat.not_lt.1 hl
      have hstep := step_of_controlByte (s := groupState f .ctrl c tok 0 i) rfl ha hb
      have hgroup := (runsGroup_groupTokens (f.input.getD f.cur 0#8) (Nat.le_refl 8) (f := f.advanceCur 1) hb
        tok).of_run (run_one hstep)
      obtain ⟨herror, hok⟩ := groupLoop_succ (fuel := fuel) ha hb
      cases hx : groupTokens (f.input.getD f.cur 0#8) 8 (f.advanceCur 1) with
      | error res =>
        rw [hx] at hgroup
        rw [herror res hx]
        exact hgroup
      | ok g =>
        rw [hx] at hgroup
        rw [hok g hx]
        obtain ⟨k, tok', hrun⟩ := hgroup
        obtain ⟨hinput, hbound, hcur⟩ := groupTokens_ok_frame (Nat.le_refl 8) (f := f.advanceCur 1) hb hx
        simp only [State.advanceCur_input, State.advanceCur_bound, State.advanceCur_cur] at hinput hbound hcur
        have hbg : g.bound ≤ g.input.length := by rw [hbound, hinput]; exact hb
        exact EndsWith.of_run (ih hbg (by omega) _ tok' 8) hrun

/-! ### The header (40_header_parser.md R85) -/

theorem decompress_of_short (p : Params) {input : List Byte} (hn : input.length < 16) :
    decompress p input = .err (.invalidSize (State.start p input).drawU32.1) := by
  rw [decompress, readHeader_of_length_lt hn]

theorem decompress_of_failed (p : Params) {input rest : List Byte} {h : RawHeader} {res : RunResult}
    (hr : readHeader input = some (h, rest)) (hres : (headerStep h (State.start p input)).result = some res) :
    decompress p input = res := by
  simp only [decompress, hr, hres]

theorem decompress_of_payload (p : Params) {input rest : List Byte} {h : RawHeader}
    (hr : readHeader input = some (h, rest)) (hres : (headerStep h (State.start p input)).result = none) :
    decompress p input = payloadResult (headerStep h (State.start p input)) := by
  simp only [decompress, hr, hres]

/-- The payload of a header that is not in error is run to its functional form. -/
theorem endsWith_decompress_of_header (p : Params) {input rest : List Byte} {h : RawHeader}
    (hr : readHeader input = some (h, rest)) : EndsWith (State.start p input) (decompress p input) := by
  have hstep := step_of_header (s := State.start p input) rfl hr
  cases headerStep_exit h (State.start p input) with
  | failed hdone _ e he =>
    rw [decompress_of_failed p hr he]
    exact endsWith_of_step hstep hdone he
  | passThrough he =>
    rw [decompress_of_payload p hr (by rw [he]; rfl), he]
    rw [he] at hstep
    have hlen := Nat.add_sub_of_le (length_of_readHeader hr)
    exact EndsWith.of_run ⟨_, _, run_of_pass rfl hlen, rfl, rfl⟩ (run_one hstep)
  | compressedPath _ he =>
    rw [decompress_of_payload p hr (by rw [he]; rfl), he]
    rw [he] at hstep
    exact EndsWith.of_run (endsWith_groupLoop (loopBoundValue_le ..)
      ((loopBoundValue_le ..).trans (Nat.le_add_left ..)) _ _ _) (run_one hstep)

end Sys2Proof.Machine

open Sys2Proof Sys2Proof.Machine

/-- Settles O53: a short header ends in its error; every other header and its payload are run as `decompress` does. -/
theorem runComputesFunctionalForm : Obligations.RunComputesFunctionalForm := by
  intro p input
  by_cases hn : input.length < 16
  · rw [decompress_of_short p hn]
    exact endsWith_of_step (step_of_shortInput (s := State.start p input) rfl hn) rfl rfl
  · obtain ⟨h, rest, hr⟩ := readHeader_isSome (Nat.not_lt.1 hn)
    exact endsWith_decompress_of_header p hr

end
